-- ==== Sys2Proof/Word.lean ====
section
/-! DEFINITION. The word types of the CORE (spec 00_scope.md R5, R8) and the plain field extraction of R7. -/

namespace Sys2Proof

/-- A general register, a memory byte, the timer (REG_WIDTH, TIMER_WIDTH, R5). -/
abbrev Byte := BitVec 8

/-- An instruction word, `I`, `pc`, a stack slot (INSTR_BYTES, I_WIDTH, PC_WIDTH, STACK_ENTRY_WIDTH, R5). -/
abbrev Word := BitVec 16

/-- A 12-bit address `nnn` (R54). -/
abbrev Addr12 := BitVec 12

/-- A Boolean placed in an 8-bit register is 1 for true and 0 for false (R8). -/
def boolByte (b : Bool) : Byte := if b then 1 else 0

end Sys2Proof
end

