-- ==== Sys2Proof/Syntax.lean ====
section
/-! DEFINITION. The instructions of the CORE, one constructor per row of spec/opcode_table.json (30_encoding.md R64),
and the source terms of the assembler of R66. -/

namespace Sys2Proof

/-- A register number 0x0 to 0xF; every value is legal (R57). -/
abbrev Reg := Fin 16

/-- VF, register 15: a general register and the flag (10_state.md R15). -/
abbrev Reg.VF : Reg := 15

/-- V0, register 0: the offset of Bnnn (10_state.md R14). -/
abbrev Reg.V0 : Reg := 0

/-- The 30 instructions in the order of R64. Each field has exactly the width R54 gives it, so every term is an
instruction the encoding admits (R56, R57). -/
inductive Instr where
  /-- 00E0, `CLS` -/
  | cls
  /-- 00EE, `RET` -/
  | ret
  /-- 1nnn, `JP nnn` -/
  | jp (nnn : Addr12)
  /-- 2nnn, `CALL nnn` -/
  | call (nnn : Addr12)
  /-- 3xkk, `SE Vx, kk` -/
  | seImm (x : Reg) (kk : Byte)
  /-- 4xkk, `SNE Vx, kk` -/
  | sneImm (x : Reg) (kk : Byte)
  /-- 5xy0, `SE Vx, Vy` -/
  | seReg (x y : Reg)
  /-- 6xkk, `LD Vx, kk` -/
  | ldImm (x : Reg) (kk : Byte)
  /-- 7xkk, `ADD Vx, kk` -/
  | addImm (x : Reg) (kk : Byte)
  /-- 8xy0, `LD Vx, Vy` -/
  | ldReg (x y : Reg)
  /-- 8xy1, `OR Vx, Vy` -/
  | or (x y : Reg)
  /-- 8xy2, `AND Vx, Vy` -/
  | and (x y : Reg)
  /-- 8xy3, `XOR Vx, Vy` -/
  | xor (x y : Reg)
  /-- 8xy4, `ADD Vx, Vy` -/
  | addReg (x y : Reg)
  /-- 8xy5, `SUB Vx, Vy` -/
  | sub (x y : Reg)
  /-- 8xy6, `SHR Vx, Vy`: y is encoded and not read (R57) -/
  | shr (x y : Reg)
  /-- 8xy7, `SUBN Vx, Vy` -/
  | subn (x y : Reg)
  /-- 8xyE, `SHL Vx, Vy`: y is encoded and not read (R57) -/
  | shl (x y : Reg)
  /-- 9xy0, `SNE Vx, Vy` -/
  | sneReg (x y : Reg)
  /-- Annn, `LD I, nnn` -/
  | ldI (nnn : Addr12)
  /-- Bnnn, `JP V0, nnn` -/
  | jpV0 (nnn : Addr12)
  /-- Cxkk, `RND Vx, kk` -/
  | rnd (x : Reg) (kk : Byte)
  /-- Dxyn, `DRW Vx, Vy, n`; n is a row count 0 to 15 (R56) -/
  | drw (x y : Reg) (n : Fin 16)
  /-- Fx07, `LD Vx, DT` -/
  | ldVxDt (x : Reg)
  /-- Fx15, `LD DT, Vx` -/
  | ldDtVx (x : Reg)
  /-- Fx1E, `ADD I, Vx` -/
  | addI (x : Reg)
  /-- Fx29, `LD F, Vx` -/
  | ldF (x : Reg)
  /-- Fx33, `LD B, Vx` -/
  | ldB (x : Reg)
  /-- Fx55, `LD [I], Vx` -/
  | storeRegs (x : Reg)
  /-- Fx65, `LD Vx, [I]` -/
  | loadRegs (x : Reg)
  deriving DecidableEq, Repr

/-- The 17 mnemonics of R66. -/
inductive Mnemonic where
  | cls | ret | jp | call | se | sne | ld | add | or | and | xor | sub | shr | subn | shl | rnd | drw
  deriving DecidableEq, Repr

/-- An operand as an assembler line writes it (R66). The numbers are unbounded here; whether they fit is a check of
WellFormed. -/
inductive Operand where
  /-- `V0` to `VF`, by number -/
  | v (r : Nat)
  /-- `I` -/
  | i
  /-- `DT` -/
  | dt
  /-- `F` -/
  | f
  /-- `B` -/
  | b
  /-- `[I]` -/
  | atI
  /-- a number, or a label's address -/
  | num (n : Nat)
  deriving DecidableEq, Repr

/-- One instruction of an assembler source: a mnemonic and its operands (R66). -/
structure AsmInstr where
  mnemonic : Mnemonic
  operands : List Operand
  deriving DecidableEq, Repr

end Sys2Proof
end

