-- ==== Sys2Proof/WellFormed.lean ====
section
/-! DEFINITION. What an assembler refuses (spec 30_encoding.md R66). A term of `Instr` needs no check: its field types
have exactly the widths of R54 and every value is legal (R57). A source term can be ill-formed in four ways: an operand
shape no row has, a register number above 0xF, a number that does not fit its field, an offset register other than V0. -/

namespace Sys2Proof

/-- A register number names one of V0 to VF (R57). -/
def Operand.regFits (r : Nat) : Bool := r < 16

/-- `nnn` must fit in 12 bits, `kk` in 8 bits and `n` in 4 bits (R66). -/
def Operand.numFits (bits n : Nat) : Bool := n < 2 ^ bits

/-- The mnemonic and operand shape is one of R66's, and each number fits its field. -/
def AsmInstr.wellFormed (a : AsmInstr) : Bool :=
  match a.mnemonic, a.operands with
  | .cls, [] => true
  | .ret, [] => true
  | .jp, [.num n] => Operand.numFits 12 n
  | .jp, [.v r, .num n] => r == 0 && Operand.numFits 12 n
  | .call, [.num n] => Operand.numFits 12 n
  | .se, [.v x, .num k] => Operand.regFits x && Operand.numFits 8 k
  | .se, [.v x, .v y] => Operand.regFits x && Operand.regFits y
  | .sne, [.v x, .num k] => Operand.regFits x && Operand.numFits 8 k
  | .sne, [.v x, .v y] => Operand.regFits x && Operand.regFits y
  | .ld, [.v x, .num k] => Operand.regFits x && Operand.numFits 8 k
  | .ld, [.v x, .v y] => Operand.regFits x && Operand.regFits y
  | .ld, [.i, .num n] => Operand.numFits 12 n
  | .ld, [.v x, .dt] => Operand.regFits x
  | .ld, [.dt, .v x] => Operand.regFits x
  | .ld, [.f, .v x] => Operand.regFits x
  | .ld, [.b, .v x] => Operand.regFits x
  | .ld, [.atI, .v x] => Operand.regFits x
  | .ld, [.v x, .atI] => Operand.regFits x
  | .add, [.v x, .num k] => Operand.regFits x && Operand.numFits 8 k
  | .add, [.v x, .v y] => Operand.regFits x && Operand.regFits y
  | .add, [.i, .v x] => Operand.regFits x
  | .or, [.v x, .v y] => Operand.regFits x && Operand.regFits y
  | .and, [.v x, .v y] => Operand.regFits x && Operand.regFits y
  | .xor, [.v x, .v y] => Operand.regFits x && Operand.regFits y
  | .sub, [.v x, .v y] => Operand.regFits x && Operand.regFits y
  | .shr, [.v x] => Operand.regFits x
  | .shr, [.v x, .v y] => Operand.regFits x && Operand.regFits y
  | .subn, [.v x, .v y] => Operand.regFits x && Operand.regFits y
  | .shl, [.v x] => Operand.regFits x
  | .shl, [.v x, .v y] => Operand.regFits x && Operand.regFits y
  | .rnd, [.v x, .num k] => Operand.regFits x && Operand.numFits 8 k
  | .drw, [.v x, .v y, .num n] => Operand.regFits x && Operand.regFits y && Operand.numFits 4 n
  | _, _ => false

end Sys2Proof
end

