-- ==== Sys2Proof/Decode.lean ====
section
/-! DEFINITION. Decoding, encoding and assembling the 30 instructions (spec 30_encoding.md R53 to R66). -/

namespace Sys2Proof

/-- The 4-bit field of w whose lowest bit is bit lo: op at 12, x at 8, y at 4, n at 0 (R54). -/
def nibbleAt (w : Word) (lo : Nat) : Fin 16 := (w.extractLsb' lo 4).toFin

/-- `op = w[15:12]` (R54). -/
def fieldOp (w : Word) : Fin 16 := nibbleAt w 12

/-- `x = w[11:8]` (R54). -/
def fieldX (w : Word) : Reg := nibbleAt w 8

/-- `y = w[7:4]` (R54). -/
def fieldY (w : Word) : Reg := nibbleAt w 4

/-- `n = w[3:0]` (R54). -/
def fieldN (w : Word) : Fin 16 := nibbleAt w 0

/-- `kk = w[7:0]` (R54). -/
def fieldKk (w : Word) : Byte := w.extractLsb' 0 8

/-- `nnn = w[11:0]` (R54). -/
def fieldNnn (w : Word) : Addr12 := w.extractLsb' 0 12

/-- A word that matches no row, named by the group of R65's table it falls in. -/
inductive UnknownOpcode where
  /-- 0x0000 to 0x0FFF except 0x00E0 and 0x00EE (R59) -/
  | group0
  /-- 5xyN with N in 1..F (R60) -/
  | group5
  /-- 8xyN with N in 8 to D and F (R61) -/
  | group8
  /-- 9xyN with N in 1..F (R60) -/
  | group9
  /-- 0xE000 to 0xEFFF (R62) -/
  | groupE
  /-- FxKK with KK none of the seven sub-opcodes (R63) -/
  | groupF
  deriving DecidableEq, Repr

/-- Group 8: n selects the operation (R61). -/
def decode8 (x y : Reg) (n : Fin 16) : Except UnknownOpcode Instr :=
  match n.val with
  | 0x0 => .ok (.ldReg x y)
  | 0x1 => .ok (.or x y)
  | 0x2 => .ok (.and x y)
  | 0x3 => .ok (.xor x y)
  | 0x4 => .ok (.addReg x y)
  | 0x5 => .ok (.sub x y)
  | 0x6 => .ok (.shr x y)
  | 0x7 => .ok (.subn x y)
  | 0xE => .ok (.shl x y)
  | _ => .error .group8

/-- Group F: kk selects the operation (R63). -/
def decodeF (x : Reg) (kk : Byte) : Except UnknownOpcode Instr :=
  match kk.toNat with
  | 0x07 => .ok (.ldVxDt x)
  | 0x15 => .ok (.ldDtVx x)
  | 0x1E => .ok (.addI x)
  | 0x29 => .ok (.ldF x)
  | 0x33 => .ok (.ldB x)
  | 0x55 => .ok (.storeRegs x)
  | 0x65 => .ok (.loadRegs x)
  | _ => .error .groupF

/-- Decoding reads no state other than w and cannot fault (R58, R70). The last arm is op = 0xF, the one value left. -/
def decode (w : Word) : Except UnknownOpcode Instr :=
  match (fieldOp w).val with
  | 0x0 => if w = 0x00E0 then .ok .cls else if w = 0x00EE then .ok .ret else .error .group0
  | 0x1 => .ok (.jp (fieldNnn w))
  | 0x2 => .ok (.call (fieldNnn w))
  | 0x3 => .ok (.seImm (fieldX w) (fieldKk w))
  | 0x4 => .ok (.sneImm (fieldX w) (fieldKk w))
  | 0x5 => if fieldN w = 0 then .ok (.seReg (fieldX w) (fieldY w)) else .error .group5
  | 0x6 => .ok (.ldImm (fieldX w) (fieldKk w))
  | 0x7 => .ok (.addImm (fieldX w) (fieldKk w))
  | 0x8 => decode8 (fieldX w) (fieldY w) (fieldN w)
  | 0x9 => if fieldN w = 0 then .ok (.sneReg (fieldX w) (fieldY w)) else .error .group9
  | 0xA => .ok (.ldI (fieldNnn w))
  | 0xB => .ok (.jpV0 (fieldNnn w))
  | 0xC => .ok (.rnd (fieldX w) (fieldKk w))
  | 0xD => .ok (.drw (fieldX w) (fieldY w) (fieldN w))
  | 0xE => .error .groupE
  | _ => decodeF (fieldX w) (fieldKk w)

/-- The word at two bytes, big-endian: the first is bits 15:8 (20_memory.md R37). -/
def wordOfBytes (b0 b1 : Byte) : Word := b0 ++ b1

/-- The byte at the lower address of a word's two bytes (R37). -/
def highByte (w : Word) : Byte := w.extractLsb' 8 8

/-- The byte at the higher address of a word's two bytes (R37). -/
def lowByte (w : Word) : Byte := w.extractLsb' 0 8

/-- Why a byte sequence is no instruction. -/
inductive DecodeError where
  /-- fewer than the two bytes every instruction has (R53) -/
  | tooShort
  /-- a word that matches no row (R65) -/
  | unknown (u : UnknownOpcode)
  deriving DecidableEq, Repr

/-- The instruction at the head of a byte sequence, and the bytes after it; every instruction is two bytes (R53). -/
def decodeBytes : List Byte → Except DecodeError (Instr × List Byte)
  | b0 :: b1 :: rest =>
    match decode (wordOfBytes b0 b1) with
    | .ok i => .ok (i, rest)
    | .error u => .error (.unknown u)
  | _ => .error .tooShort

/-- A word of spec/opcode_table.json as the hardware stores it: the high byte first (R37). -/
def tableBytes (nbits w : Nat) : List Byte :=
  let word : Word := BitVec.ofNat 16 (w % 2 ^ nbits)
  [highByte word, lowByte word]

/-- The instruction the decoder reads from a table row's word of nbits bits; every bit above nbits is 0. -/
def decodeTableWord (nbits w : Nat) : Option Instr :=
  match decodeBytes (tableBytes nbits w) with
  | .ok (i, _) => some i
  | .error _ => none

/-! ## Encoding -/

/-- A 4-bit field's bits. -/
def nibbleBits (n : Fin 16) : BitVec 4 := BitVec.ofFin n

/-- Format NNN, `oooo nnnn nnnn nnnn` (R55). -/
def formatNNN (op : BitVec 4) (nnn : Addr12) : Word := op ++ nnn

/-- Format XKK, `oooo xxxx kkkk kkkk` (R55). -/
def formatXKK (op : BitVec 4) (x : Reg) (kk : Byte) : Word := op ++ nibbleBits x ++ kk

/-- Formats XYS and XYN, `oooo xxxx yyyy ssss` (R55). -/
def formatXYN (op : BitVec 4) (x y : Reg) (n : Fin 16) : Word :=
  op ++ nibbleBits x ++ nibbleBits y ++ nibbleBits n

/-- Format XS, `1111 xxxx ssss ssss` (R55). -/
def formatXS (x : Reg) (s : Byte) : Word := (0xF : BitVec 4) ++ nibbleBits x ++ s

/-- The word of an instruction, from the patterns of R64. -/
def encode : Instr → Word
  | .cls => 0x00E0
  | .ret => 0x00EE
  | .jp nnn => formatNNN 0x1 nnn
  | .call nnn => formatNNN 0x2 nnn
  | .seImm x kk => formatXKK 0x3 x kk
  | .sneImm x kk => formatXKK 0x4 x kk
  | .seReg x y => formatXYN 0x5 x y 0x0
  | .ldImm x kk => formatXKK 0x6 x kk
  | .addImm x kk => formatXKK 0x7 x kk
  | .ldReg x y => formatXYN 0x8 x y 0x0
  | .or x y => formatXYN 0x8 x y 0x1
  | .and x y => formatXYN 0x8 x y 0x2
  | .xor x y => formatXYN 0x8 x y 0x3
  | .addReg x y => formatXYN 0x8 x y 0x4
  | .sub x y => formatXYN 0x8 x y 0x5
  | .shr x y => formatXYN 0x8 x y 0x6
  | .subn x y => formatXYN 0x8 x y 0x7
  | .shl x y => formatXYN 0x8 x y 0xE
  | .sneReg x y => formatXYN 0x9 x y 0x0
  | .ldI nnn => formatNNN 0xA nnn
  | .jpV0 nnn => formatNNN 0xB nnn
  | .rnd x kk => formatXKK 0xC x kk
  | .drw x y n => formatXYN 0xD x y n
  | .ldVxDt x => formatXS x 0x07
  | .ldDtVx x => formatXS x 0x15
  | .addI x => formatXS x 0x1E
  | .ldF x => formatXS x 0x29
  | .ldB x => formatXS x 0x33
  | .storeRegs x => formatXS x 0x55
  | .loadRegs x => formatXS x 0x65

/-- The bytes of an instruction in memory order (R37). -/
def encodeBytes (i : Instr) : List Byte := [highByte (encode i), lowByte (encode i)]

/-- One row of the opcode map: a word w is the row's if `(w AND mask) == pattern` (R64). -/
structure OpcodeRow where
  pattern : Word
  mask : Word
  deriving DecidableEq, Repr

/-- The row matches the word (R64). -/
def OpcodeRow.matchesWord (r : OpcodeRow) (w : Word) : Bool := w &&& r.mask == r.pattern

/-- The opcode map, rows 1 to 30 of R64 with their `match` and `mask` columns. -/
def opcodeMap : List OpcodeRow :=
  [⟨0x00E0, 0xFFFF⟩, ⟨0x00EE, 0xFFFF⟩, ⟨0x1000, 0xF000⟩, ⟨0x2000, 0xF000⟩, ⟨0x3000, 0xF000⟩,
   ⟨0x4000, 0xF000⟩, ⟨0x5000, 0xF00F⟩, ⟨0x6000, 0xF000⟩, ⟨0x7000, 0xF000⟩, ⟨0x8000, 0xF00F⟩] ++
  [⟨0x8001, 0xF00F⟩, ⟨0x8002, 0xF00F⟩, ⟨0x8003, 0xF00F⟩, ⟨0x8004, 0xF00F⟩, ⟨0x8005, 0xF00F⟩,
   ⟨0x8006, 0xF00F⟩, ⟨0x8007, 0xF00F⟩, ⟨0x800E, 0xF00F⟩, ⟨0x9000, 0xF00F⟩, ⟨0xA000, 0xF000⟩] ++
  [⟨0xB000, 0xF000⟩, ⟨0xC000, 0xF000⟩, ⟨0xD000, 0xF000⟩, ⟨0xF007, 0xF0FF⟩, ⟨0xF015, 0xF0FF⟩,
   ⟨0xF01E, 0xF0FF⟩, ⟨0xF029, 0xF0FF⟩, ⟨0xF033, 0xF0FF⟩, ⟨0xF055, 0xF0FF⟩, ⟨0xF065, 0xF0FF⟩]

/-- The number, from 1, of an instruction's row in R64. -/
def Instr.row : Instr → Nat
  | .cls => 1
  | .ret => 2
  | .jp _ => 3
  | .call _ => 4
  | .seImm _ _ => 5
  | .sneImm _ _ => 6
  | .seReg _ _ => 7
  | .ldImm _ _ => 8
  | .addImm _ _ => 9
  | .ldReg _ _ => 10
  | .or _ _ => 11
  | .and _ _ => 12
  | .xor _ _ => 13
  | .addReg _ _ => 14
  | .sub _ _ => 15
  | .shr _ _ => 16
  | .subn _ _ => 17
  | .shl _ _ => 18
  | .sneReg _ _ => 19
  | .ldI _ => 20
  | .jpV0 _ => 21
  | .rnd _ _ => 22
  | .drw _ _ _ => 23
  | .ldVxDt _ => 24
  | .ldDtVx _ => 25
  | .addI _ => 26
  | .ldF _ => 27
  | .ldB _ => 28
  | .storeRegs _ => 29
  | .loadRegs _ => 30

/-! ## Assembling one instruction (R66) -/

/-- The instruction of a mnemonic and operand shape whose numbers fit (R66, "Encoding from syntax"). -/
def assembleShape (a : AsmInstr) : Option Instr :=
  let reg (r : Nat) : Reg := Fin.ofNat 16 r
  match a.mnemonic, a.operands with
  | .cls, [] => some .cls
  | .ret, [] => some .ret
  | .jp, [.num n] => some (.jp (BitVec.ofNat 12 n))
  | .jp, [.v _, .num n] => some (.jpV0 (BitVec.ofNat 12 n))
  | .call, [.num n] => some (.call (BitVec.ofNat 12 n))
  | .se, [.v x, .num k] => some (.seImm (reg x) (BitVec.ofNat 8 k))
  | .se, [.v x, .v y] => some (.seReg (reg x) (reg y))
  | .sne, [.v x, .num k] => some (.sneImm (reg x) (BitVec.ofNat 8 k))
  | .sne, [.v x, .v y] => some (.sneReg (reg x) (reg y))
  | .ld, [.v x, .num k] => some (.ldImm (reg x) (BitVec.ofNat 8 k))
  | .ld, [.v x, .v y] => some (.ldReg (reg x) (reg y))
  | .ld, [.i, .num n] => some (.ldI (BitVec.ofNat 12 n))
  | .ld, [.v x, .dt] => some (.ldVxDt (reg x))
  | .ld, [.dt, .v x] => some (.ldDtVx (reg x))
  | .ld, [.f, .v x] => some (.ldF (reg x))
  | .ld, [.b, .v x] => some (.ldB (reg x))
  | .ld, [.atI, .v x] => some (.storeRegs (reg x))
  | .ld, [.v x, .atI] => some (.loadRegs (reg x))
  | .add, [.v x, .num k] => some (.addImm (reg x) (BitVec.ofNat 8 k))
  | .add, [.v x, .v y] => some (.addReg (reg x) (reg y))
  | .add, [.i, .v x] => some (.addI (reg x))
  | .or, [.v x, .v y] => some (.or (reg x) (reg y))
  | .and, [.v x, .v y] => some (.and (reg x) (reg y))
  | .xor, [.v x, .v y] => some (.xor (reg x) (reg y))
  | .sub, [.v x, .v y] => some (.sub (reg x) (reg y))
  | .shr, [.v x] => some (.shr (reg x) 0)
  | .shr, [.v x, .v y] => some (.shr (reg x) (reg y))
  | .subn, [.v x, .v y] => some (.subn (reg x) (reg y))
  | .shl, [.v x] => some (.shl (reg x) 0)
  | .shl, [.v x, .v y] => some (.shl (reg x) (reg y))
  | .rnd, [.v x, .num k] => some (.rnd (reg x) (BitVec.ofNat 8 k))
  | .drw, [.v x, .v y, .num n] => some (.drw (reg x) (reg y) (Fin.ofNat 16 n))
  | _, _ => none

/-- The instruction a source term stands for; refused unless well-formed (R66). -/
def assemble (a : AsmInstr) : Option Instr := if a.wellFormed then assembleShape a else none

/-- The source term of an instruction, in R66's own spelling. -/
def disassemble : Instr → AsmInstr
  | .cls => ⟨.cls, []⟩
  | .ret => ⟨.ret, []⟩
  | .jp nnn => ⟨.jp, [.num nnn.toNat]⟩
  | .call nnn => ⟨.call, [.num nnn.toNat]⟩
  | .seImm x kk => ⟨.se, [.v x, .num kk.toNat]⟩
  | .sneImm x kk => ⟨.sne, [.v x, .num kk.toNat]⟩
  | .seReg x y => ⟨.se, [.v x, .v y]⟩
  | .ldImm x kk => ⟨.ld, [.v x, .num kk.toNat]⟩
  | .addImm x kk => ⟨.add, [.v x, .num kk.toNat]⟩
  | .ldReg x y => ⟨.ld, [.v x, .v y]⟩
  | .or x y => ⟨.or, [.v x, .v y]⟩
  | .and x y => ⟨.and, [.v x, .v y]⟩
  | .xor x y => ⟨.xor, [.v x, .v y]⟩
  | .addReg x y => ⟨.add, [.v x, .v y]⟩
  | .sub x y => ⟨.sub, [.v x, .v y]⟩
  | .shr x y => ⟨.shr, [.v x, .v y]⟩
  | .subn x y => ⟨.subn, [.v x, .v y]⟩
  | .shl x y => ⟨.shl, [.v x, .v y]⟩
  | .sneReg x y => ⟨.sne, [.v x, .v y]⟩
  | .ldI nnn => ⟨.ld, [.i, .num nnn.toNat]⟩
  | .jpV0 nnn => ⟨.jp, [.v 0, .num nnn.toNat]⟩
  | .rnd x kk => ⟨.rnd, [.v x, .num kk.toNat]⟩
  | .drw x y n => ⟨.drw, [.v x, .v y, .num n]⟩
  | .ldVxDt x => ⟨.ld, [.v x, .dt]⟩
  | .ldDtVx x => ⟨.ld, [.dt, .v x]⟩
  | .addI x => ⟨.add, [.i, .v x]⟩
  | .ldF x => ⟨.ld, [.f, .v x]⟩
  | .ldB x => ⟨.ld, [.b, .v x]⟩
  | .storeRegs x => ⟨.ld, [.atI, .v x]⟩
  | .loadRegs x => ⟨.ld, [.v x, .atI]⟩

end Sys2Proof
end

