-- ==== Sys2Proof/Config.lean ====
section
/-! DEFINITION. The parameters of the CORE: the fixed ones of spec 00_scope.md R5 and the open ones of R6. -/

namespace Sys2Proof.Config

/-- MEM_SIZE (R5): addresses 0x000 to 0xFFF. -/
def memSize : Nat := 4096

/-- PC_RESET (R5). -/
def pcReset : Word := 0x200

/-- DISPLAY_W (R5). -/
def displayWidth : Nat := 64

/-- DISPLAY_H (R5). -/
def displayHeight : Nat := 32

/-- PROGRAM_BASE (R5): the default base of the host's `load`. -/
def programBase : Nat := 0x200

/-- The two readings of an operand that is VF (43_alu.md R95). -/
inductive VfAliasMode where
  /-- Every operand register is read once, before the instruction writes anything. -/
  | latched
  /-- The statements run in order: a read after the VF write sees the flag. -/
  | sequential
  deriving DecidableEq, Repr, Inhabited

/-- VF_ALIAS_MODE (R6) is OPEN: a free value with no body, so that a claim holds under both modes.
Log entry 1. -/
opaque vfAliasMode : VfAliasMode

/-- What a word that matches no pattern does (R6, R72). -/
inductive UnknownPolicy where
  | nop
  | fault
  deriving DecidableEq, Repr

/-- UNKNOWN_OPCODE_POLICY: the value this hardware takes (R6, R65). Log entry 4. -/
def unknownPolicy : UnknownPolicy := .nop

/-- RAND (R6, R12): the byte of the k-th draw of the random source, a free value with no body.
Log entry 2. -/
opaque randByte : Nat → Byte

/-- The default of FONT (10_state.md R32), one line of five bytes per digit 0 to F.
PRESUMED: the spec marks the table as general knowledge. Log entry 3. -/
def fontDefault : List Byte :=
  [0xF0, 0x90, 0x90, 0x90, 0xF0] ++
  [0x20, 0x60, 0x20, 0x20, 0x70] ++
  [0xF0, 0x10, 0xF0, 0x80, 0xF0] ++
  [0xF0, 0x10, 0xF0, 0x10, 0xF0] ++
  [0x90, 0x90, 0xF0, 0x10, 0x10] ++
  [0xF0, 0x80, 0xF0, 0x10, 0xF0] ++
  [0xF0, 0x80, 0xF0, 0x90, 0xF0] ++
  [0xF0, 0x10, 0x20, 0x40, 0x40] ++
  [0xF0, 0x90, 0xF0, 0x90, 0xF0] ++
  [0xF0, 0x90, 0xF0, 0x10, 0xF0] ++
  [0xF0, 0x90, 0xF0, 0x90, 0x90] ++
  [0xE0, 0x90, 0xE0, 0x90, 0xE0] ++
  [0xF0, 0x80, 0x80, 0x80, 0xF0] ++
  [0xE0, 0x90, 0x90, 0x90, 0xE0] ++
  [0xF0, 0x80, 0xF0, 0x80, 0xF0] ++
  [0xF0, 0x80, 0xF0, 0x80, 0x80]

end Sys2Proof.Config
end

