-- ==== Sys2Proof/Machine/State.lean ====
section
/-! DEFINITION. The architectural state of the CORE (spec 10_state.md R30), its reset values (R31), and the reasons a
step can stop (60_exceptions.md R118). -/

namespace Sys2Proof.Machine

/-- Memory as the bytes that differ from what an unlisted address reads as, by strictly rising address.
Machine/Memory.lean reads and writes it; `Memory.wf` there is the canonical form. -/
abbrev Memory := List Host.Cell

/-- The display: 64 x 32 pixels of one bit, held as 32 rows of 64; the pixel at column x and row y, which the spec
indexes y*64 + x, is bit x of row y (R22). -/
abbrev Display := Vector (BitVec 64) 32

/-- The complete architectural state (R30), and the model's own draw counter. -/
structure State where
  /-- V0 to VF (R14) -/
  v : Vector Byte 16
  /-- the address register I (R18) -/
  i : Word
  /-- the program counter (R17) -/
  pc : Word
  /-- the stack pointer, 8 bits wide, legal values 0 to 16 (R19) -/
  sp : Byte
  /-- the call stack, apart from memory (R20) -/
  stack : Vector Word 16
  /-- the delay counter (R21) -/
  timer : Byte
  /-- the display (R22) -/
  disp : Display
  /-- the memory, addresses 0x000 to 0xFFF (R23) -/
  mem : Memory
  /-- The MODEL's own field: the index of the next draw of the random source, so that every Cxkk reads a fresh free
  byte (R12, R24). Log entry 2. -/
  draws : Nat
  deriving DecidableEq, Repr

/-- The machine right after construction or reset (R31). An unlisted memory address reads as FONT's default or as 0
(log entry 3), so reset memory lists nothing. The value of `draws` is a DESIGN CHOICE (log entry 2). -/
def State.reset : State where
  v := Vector.replicate 16 0
  i := 0
  pc := Config.pcReset
  sp := 0
  stack := Vector.replicate 16 0
  timer := 0
  disp := Vector.replicate 32 0
  mem := []
  draws := 0

/-- The fault kinds (60_exceptions.md R118). A fault carries its kind only (R120); the step that raises it commits
nothing (40_step_cycle.md R75), so the model stops with no next state, which is safe. -/
inductive Fault where
  /-- code 1: a byte address of a fetch or data access is 4096 or above. Raised by `MemRead` and `MemWrite`
  (20_memory.md R40): fetch, Dxyn, Fx33, Fx55, Fx65. Safe: the spec's own fault. -/
  | memoryOutOfRange
  /-- code 2: 2nnn with sp = 16 (42_control_flow.md R87). Safe: the spec's own fault. Also raised by 00EE when sp is
  above 16, which no run reaches (log entry 5); safe. -/
  | stackOverflow
  /-- code 3: 00EE with sp = 0 (R85). Safe: the spec's own fault. -/
  | stackUnderflow
  /-- code 4: the host's `load` with base + len above 4096 (70_reset_and_hazards.md R141). Safe: the spec's own fault.
  No step raises it. -/
  | imageTooLarge
  /-- code 5: an unknown word under UNKNOWN_OPCODE_POLICY = `fault` (40_step_cycle.md R72). Safe: the spec's own
  fault. The policy of this hardware is `nop`, so `step` never raises it. -/
  | illegalOpcode
  deriving DecidableEq, Repr

/-- The numeric code of a fault kind, the spec's own (R118). -/
def Fault.code : Fault → Nat
  | .memoryOutOfRange => 1
  | .stackOverflow => 2
  | .stackUnderflow => 3
  | .imageTooLarge => 4
  | .illegalOpcode => 5

/-- Why the model gives an instruction no meaning. -/
inductive Refusal where
  /-- Raised by an arm of `exec` whose instruction has no meaning yet; there is none such in this model. Safe: the
  model stops. -/
  | notModelled (mnemonic : String)
  deriving DecidableEq, Repr

/-- What an instruction or a step ends in (00_scope.md R13). -/
abbrev Result := Host.Outcome State Fault Refusal

end Sys2Proof.Machine
end

