-- ==== Sys2Proof/Machine/Memory.lean ====
section
/-! DEFINITION. The memory array (spec 10_state.md R23) as a canonical list of bytes: reading and writing one byte
without the range check, and the canonical form. The range check is in Machine/Ops.lean. -/

namespace Sys2Proof.Machine

/-- FONT as this model's reset memory holds it: the default of R32. Log entry 3. -/
def font : List Byte := Config.fontDefault

/-- What an address that the list does not name reads as: FONT at 0x000 to 0x04F, 0x00 above (R31). -/
def unlisted (a : Nat) : Byte := font.getD a 0

/-- The byte at address a. -/
def Memory.get : Memory → Nat → Byte
  | [], a => unlisted a
  | (k, c) :: m, a => if a = k then c else Memory.get m a

/-- The list with no entry for address a. -/
def Memory.forget : Memory → Nat → Memory
  | [], _ => []
  | (k, c) :: m, a => if a = k then Memory.forget m a else (k, c) :: Memory.forget m a

/-- An entry put before the first higher address. -/
def Memory.insert : Memory → Nat → Byte → Memory
  | [], a, b => [(a, b)]
  | (k, c) :: m, a, b => if a < k then (a, b) :: (k, c) :: m else (k, c) :: Memory.insert m a b

/-- `mem[a] <- b`: writing what an unlisted address reads as removes the entry. -/
def Memory.set (m : Memory) (a : Nat) (b : Byte) : Memory :=
  if b = unlisted a then m.forget a else (m.forget a).insert a b

/-- Bytes at base, base + 1, and so on (70_reset_and_hazards.md R140). -/
def Memory.setBytes (m : Memory) (base : Nat) : List Byte → Memory
  | [] => m
  | b :: bs => Memory.setBytes (m.set base b) (base + 1) bs

/-- The canonical form from address lo on: addresses rise strictly, lie below MEM_SIZE, and no entry equals what an
unlisted address reads as. -/
def Memory.wfFrom : Memory → Nat → Bool
  | [], _ => true
  | (k, c) :: m, lo => decide (lo ≤ k) && decide (k < Config.memSize) && decide (c ≠ unlisted k) && Memory.wfFrom m (k + 1)

/-- The canonical form of memory. -/
def Memory.wf (m : Memory) : Bool := m.wfFrom 0

end Sys2Proof.Machine
end

