-- ==== Sys2Proof/Machine/Ops.lean ====
section
/-! DEFINITION. The state primitives of spec 00_scope.md R9 (registers, stack, pixels, `MemRead`, `MemWrite`) and the
parts of a step that are no instruction: fetch, the pc advance, the unknown word, the timer tick (40_step_cycle.md). -/

namespace Sys2Proof.Machine

/-! ## Registers -/

/-- `V[r]` (R9, R14). -/
def State.reg (s : State) (r : Reg) : Byte := s.v[r.val]

/-- `V[r] <- b`: every register can be written and stores all 8 bits (R14, R16). -/
def State.setReg (s : State) (r : Reg) (b : Byte) : State := { s with v := s.v.set r.val b }

/-- `I <- w` (R9, R18). -/
def State.setI (s : State) (w : Word) : State := { s with i := w }

/-- `pc <- target` (R9, R17). -/
def State.setPc (s : State) (target : Word) : State := { s with pc := target }

/-- `timer <- b` (R9, R21). -/
def State.setTimer (s : State) (b : Byte) : State := { s with timer := b }

/-- The next draw of the random source is used up (R12). -/
def State.nextDraw (s : State) : State := { s with draws := s.draws + 1 }

/-! ## The call stack -/

/-- `stack[j]` (R9, R20). -/
def State.slot (s : State) (j : Fin 16) : Word := s.stack[j.val]

/-- 2nnn's push: fault with 16 entries, else `stack[sp] <- w` and then `sp <- sp + 1` (R19, R87). -/
def State.push (s : State) (w : Word) : Except Fault State :=
  if h : s.sp.toNat < 16 then
    .ok { s with stack := s.stack.set s.sp.toNat w, sp := s.sp + 1 }
  else .error .stackOverflow

/-- 00EE's pop: fault when empty, else `sp <- sp - 1` and the value of `stack[sp]`, which stays in its slot (R19, R20,
R85). With sp above 16, which no run reaches, the read would be past the stack's bounds: StackOverflow (log entry 5). -/
def State.pop (s : State) : Except Fault (Word × State) :=
  if s.sp = 0 then .error .stackUnderflow
  else if h : s.sp.toNat - 1 < 16 then
    .ok (s.stack[s.sp.toNat - 1], { s with sp := s.sp - 1 })
  else .error .stackOverflow

/-! ## Memory -/

/-- `MemRead(a, 1)`: the address is an unbounded natural (R40, R41). -/
def State.memRead (s : State) (a : Nat) : Except Fault Byte :=
  if a ≥ Config.memSize then .error .memoryOutOfRange else .ok (s.mem.get a)

/-- `MemWrite(a, 1, b)` (R40, R41). -/
def State.memWrite (s : State) (a : Nat) (b : Byte) : Except Fault State :=
  if a ≥ Config.memSize then .error .memoryOutOfRange else .ok { s with mem := s.mem.set a b }

/-- The bytes at a, a + 1, ..., a + n - 1, each through the range check (R42). No read when n = 0. -/
def State.readBytes (s : State) (a : Nat) : Nat → Except Fault (List Byte)
  | 0 => .ok []
  | n + 1 =>
    match s.memRead a with
    | .error f => .error f
    | .ok b =>
      match s.readBytes (a + 1) n with
      | .error f => .error f
      | .ok bs => .ok (b :: bs)

/-- Writes at a, a + 1, and so on, each through the range check (R42). If one address is out of range the whole is a
fault and no state with some bytes written is left (R43). -/
def State.writeBytes (s : State) (a : Nat) : List Byte → Except Fault State
  | [] => .ok s
  | b :: bs =>
    match s.memWrite a b with
    | .error f => .error f
    | .ok t => t.writeBytes (a + 1) bs

/-- The registers from V[r] on take the bytes in order (44_index_memory.md R114). A register number is below 16. -/
def State.loadRegsFrom (s : State) (r : Nat) : List Byte → State
  | [] => s
  | b :: bs => (s.setReg (Fin.ofNat 16 r) b).loadRegsFrom (r + 1) bs

/-- `V[0], ..., V[x]` (R113). -/
def State.regsUpTo (s : State) (x : Reg) : List Byte := s.v.toList.take (x.val + 1)

/-! ## The display -/

/-- The pixel at column x and row y (R22). -/
def State.pixelAt (s : State) (x : Fin 64) (y : Fin 32) : Bool := s.disp[y.val].getLsbD x.val

/-- `disp[k]`, with k = y*64 + x (R22). -/
def State.pixel (s : State) (k : Fin 2048) : Bool := s.pixelAt (Fin.ofNat 64 k.val) (Fin.ofNat 32 (k.val / 64))

/-- Every pixel clear (R79). -/
def clearDisplay : Display := Vector.replicate 32 0

/-- One toggle of Dxyn: a set pixel that becomes clear is a collision (41_display.md R80, R81). The second component
is the collision so far. -/
def togglePixel (d : Display × Bool) (x : Fin 64) (y : Fin 32) : Display × Bool :=
  (d.1.set y.val (d.1[y.val] ^^^ BitVec.twoPow 64 x.val), d.2 || d.1[y.val].getLsbD x.val)

/-- One sprite row at start column cx: column 0 is bit 7, a set bit toggles its pixel, columns wrap modulo 64 (R80,
R82). -/
def drawRow (cx : Nat) (y : Fin 32) (bits : Byte) (d : Display × Bool) : Display × Bool :=
  (List.range 8).foldl
    (fun d col => if bits.getLsbD (7 - col) then togglePixel d (Fin.ofNat 64 (cx + col)) y else d) d

/-- The rows of a sprite from row `row` on; rows wrap modulo 32 (R80, R82). -/
def drawRows (cx cy row : Nat) : List Byte → Display × Bool → Display × Bool
  | [], d => d
  | b :: bs, d => drawRows cx cy (row + 1) bs (drawRow cx (Fin.ofNat 32 (cy + row)) b d)

/-! ## The step around an instruction -/

/-- What an instruction that may raise a fault ends in (R10). -/
def commit : Except Fault State → Result
  | .ok s => .next s
  | .error f => .fault f

/-- Fetch: two bytes at pc and pc + 1, both range-checked, big-endian (40_step_cycle.md R68, 20_memory.md R37). -/
def State.fetch (s : State) : Except Fault Word :=
  match s.memRead s.pc.toNat with
  | .error f => .error f
  | .ok b0 =>
    match s.memRead (s.pc.toNat + 1) with
    | .error f => .error f
    | .ok b1 => .ok (b0 ++ b1)

/-- `pc <- trunc_16(pc + 2)`: after the fetch and before execution (R69), and once more by a skip (R88). -/
def State.advancePc (s : State) : State := s.setPc (s.pc + 2)

/-- A word that matches no row: a no-op, or IllegalOpcode under the policy `fault` (R72). -/
def unknownOpcode (policy : Config.UnknownPolicy) (s : State) : Result :=
  match policy with
  | .nop => .next s
  | .fault => .fault .illegalOpcode

/-- UNKNOWN_OPCODE_POLICY of this hardware (00_scope.md R6). Log entry 4. -/
def unknownPolicy : Config.UnknownPolicy := Config.unknownPolicy

/-- The timer ticks once at the end of a successful step (R74). -/
def State.tick (s : State) : State := if s.timer ≠ 0 then s.setTimer (s.timer - 1) else s

/-- The end of a step: the tick follows a successful execution, and no other (R74, R75). -/
def finishStep : Result → Result
  | .next s => .next s.tick
  | .fault f => .fault f
  | .refused r => .refused r

end Sys2Proof.Machine
end

