-- ==== Sys2Proof/Machine/Operands.lean ====
section
/-! DEFINITION. The operand forms of the CORE: zero-extended immediates (spec 30_encoding.md R56), I-relative addresses
(20_memory.md R41), a register read again after the VF write (43_alu.md R95), sprite coordinates and digits. -/

namespace Sys2Proof.Machine

/-- VF_ALIAS_MODE of this hardware, open (R6, R95). Log entry 1. -/
def aliasMode : Config.VfAliasMode := Config.vfAliasMode

/-- `zext_16(nnn)` (R56). -/
def zextAddr (nnn : Addr12) : Word := nnn.setWidth 16

/-- `zext_16(V[x])` (R111, R110). -/
def zextByte (b : Byte) : Word := b.setWidth 16

/-- What reading register r gives after `V[0xF] <- flag`, where `before` is its value at the start of the instruction:
only a read of VF depends on the mode (R95). -/
def readAfterFlag (mode : Config.VfAliasMode) (r : Reg) (before flag : Byte) : Byte :=
  if r = Reg.VF then
    match mode with
    | .latched => before
    | .sequential => flag
  else before

/-- A sprite's start column, `V[x] mod 64`, read before or after VF is cleared (41_display.md R80). -/
def spriteColumn (mode : Config.VfAliasMode) (x : Reg) (s : State) : Nat :=
  (readAfterFlag mode x (s.reg x) 0).toNat % Config.displayWidth

/-- A sprite's start row, `V[y] mod 32`, read before or after VF is cleared (R80). -/
def spriteRow (mode : Config.VfAliasMode) (y : Reg) (s : State) : Nat :=
  (readAfterFlag mode y (s.reg y) 0).toNat % Config.displayHeight

/-- The address an I-relative access starts at, an unbounded natural (R41). -/
def baseAddr (s : State) : Nat := s.i.toNat

/-- The three decimal digits of a byte: hundreds, tens, units (44_index_memory.md R112). -/
def bcdDigits (b : Byte) : List Byte :=
  [BitVec.ofNat 8 (b.toNat / 100), BitVec.ofNat 8 (b.toNat / 10 % 10), BitVec.ofNat 8 (b.toNat % 10)]

/-- The address of the glyph for a byte, not masked to 4 bits: at most 1275, so 16 bits hold it (R111). -/
def glyphAddr (b : Byte) : Word := zextByte b * 5

end Sys2Proof.Machine
end

