-- ==== Sys2Proof/Machine/Flags.lean ====
section
/-! DEFINITION. The flag VF and the arithmetic that sets it: exact unsigned numbers, narrowed at the end (spec 43_alu.md
R94, 10_state.md R25). -/

namespace Sys2Proof.Machine

/-- `trunc_8(a + b)` (R94). -/
def addWrap (a b : Byte) : Byte := BitVec.ofNat 8 (a.toNat + b.toNat)

/-- `trunc_8(a - b)`, that is `(a - b + 256) mod 256` (R94). -/
def subWrap (a b : Byte) : Byte := BitVec.ofNat 8 (a.toNat + 256 - b.toNat)

/-- `a >> 1`, a zero shifted into bit 7 (R94, R104). -/
def shiftRight (a : Byte) : Byte := a >>> 1

/-- `trunc_8(a << 1)`, a zero shifted into bit 0 (R94, R106). -/
def shiftLeft (a : Byte) : Byte := a <<< 1

/-- The carry of 8xy4: 1 if a + b > 255 (R25, R102). -/
def carryFlag (a b : Byte) : Byte := boolByte (decide (a.toNat + b.toNat > 255))

/-- The no-borrow flag of a - b: 1 if a > b, strictly (R25, R94). -/
def noBorrowFlag (a b : Byte) : Byte := boolByte (decide (a.toNat > b.toNat))

/-- The bit 8xy6 shifts out: bit 0 (R25, R104). -/
def lowBitFlag (a : Byte) : Byte := boolByte (a.getLsbD 0)

/-- The bit 8xyE shifts out: bit 7 (R25, R106). -/
def highBitFlag (a : Byte) : Byte := boolByte (a.getLsbD 7)

/-- The flag write followed by the data write, in the source's order: when x = 0xF the data result is what VF finally
holds (R95, R102). -/
def State.setFlagThenReg (s : State) (flag : Byte) (x : Reg) (b : Byte) : State :=
  (s.setReg Reg.VF flag).setReg x b

end Sys2Proof.Machine
end

