-- ==== Sys2Proof/Machine/Alu.lean ====
section
/-! DEFINITION. The register and ALU instructions (spec 43_alu.md R94 to R108). None can fault. -/

namespace Sys2Proof.Machine

/-- 6xkk, LD Vx, kk (R96). -/
def execLdImm (x : Reg) (kk : Byte) (s : State) : Result := .next (s.setReg x kk)

/-- 7xkk, ADD Vx, kk: no flag (R97). -/
def execAddImm (x : Reg) (kk : Byte) (s : State) : Result := .next (s.setReg x (addWrap (s.reg x) kk))

/-- 8xy0, LD Vx, Vy (R98). -/
def execLdReg (x y : Reg) (s : State) : Result := .next (s.setReg x (s.reg y))

/-- 8xy1, OR Vx, Vy: VF is not reset (R99). -/
def execOr (x y : Reg) (s : State) : Result := .next (s.setReg x (s.reg x ||| s.reg y))

/-- 8xy2, AND Vx, Vy (R100). -/
def execAnd (x y : Reg) (s : State) : Result := .next (s.setReg x (s.reg x &&& s.reg y))

/-- 8xy3, XOR Vx, Vy (R101). -/
def execXor (x y : Reg) (s : State) : Result := .next (s.setReg x (s.reg x ^^^ s.reg y))

/-- 8xy4, ADD Vx, Vy: the sum is latched before the flag write (R102). -/
def execAddReg (x y : Reg) (s : State) : Result :=
  .next (s.setFlagThenReg (carryFlag (s.reg x) (s.reg y)) x (addWrap (s.reg x) (s.reg y)))

/-- 8xy5 under a given VF_ALIAS_MODE (R95, R103). -/
def subUnder (mode : Config.VfAliasMode) (x y : Reg) (s : State) : State :=
  let flag := noBorrowFlag (s.reg x) (s.reg y)
  s.setFlagThenReg flag x (subWrap (readAfterFlag mode x (s.reg x) flag) (readAfterFlag mode y (s.reg y) flag))

/-- 8xy5, SUB Vx, Vy (R103). -/
def execSub (x y : Reg) (s : State) : Result := .next (subUnder aliasMode x y s)

/-- 8xy6 under a given VF_ALIAS_MODE (R95, R104). -/
def shrUnder (mode : Config.VfAliasMode) (x : Reg) (s : State) : State :=
  let flag := lowBitFlag (s.reg x)
  s.setFlagThenReg flag x (shiftRight (readAfterFlag mode x (s.reg x) flag))

/-- 8xy6, SHR Vx: V[y] is not read (R57, R104). -/
def execShr (x _y : Reg) (s : State) : Result := .next (shrUnder aliasMode x s)

/-- 8xy7 under a given VF_ALIAS_MODE (R95, R105). -/
def subnUnder (mode : Config.VfAliasMode) (x y : Reg) (s : State) : State :=
  let flag := noBorrowFlag (s.reg y) (s.reg x)
  s.setFlagThenReg flag x (subWrap (readAfterFlag mode y (s.reg y) flag) (readAfterFlag mode x (s.reg x) flag))

/-- 8xy7, SUBN Vx, Vy (R105). -/
def execSubn (x y : Reg) (s : State) : Result := .next (subnUnder aliasMode x y s)

/-- 8xyE under a given VF_ALIAS_MODE (R95, R106). -/
def shlUnder (mode : Config.VfAliasMode) (x : Reg) (s : State) : State :=
  let flag := highBitFlag (s.reg x)
  s.setFlagThenReg flag x (shiftLeft (readAfterFlag mode x (s.reg x) flag))

/-- 8xyE, SHL Vx: V[y] is not read (R57, R106). -/
def execShl (x _y : Reg) (s : State) : Result := .next (shlUnder aliasMode x s)

/-- Cxkk with the draw r (R107). -/
def rndWith (r : Byte) (x : Reg) (kk : Byte) (s : State) : State := (s.setReg x (r &&& kk)).nextDraw

/-- Cxkk, RND Vx, kk: the draw is a free byte (R12, R107). Log entry 2. -/
def execRnd (x : Reg) (kk : Byte) (s : State) : Result := .next (rndWith (Config.randByte s.draws) x kk s)

end Sys2Proof.Machine
end

