-- ==== Sys2Proof/Machine/Control.lean ====
section
/-! DEFINITION. The control-flow instructions (spec 42_control_flow.md R85 to R93). Here `pc` is the address of the
instruction plus 2: the step has advanced it (40_step_cycle.md R69). -/

namespace Sys2Proof.Machine

/-- A skip: pc moves over the next 2 bytes if the condition holds (R88, R93). -/
def skipIf (c : Bool) (s : State) : Result := .next (if c then s.advancePc else s)

/-- 00EE, RET (R85). -/
def execRet (s : State) : Result :=
  match s.pop with
  | .error f => .fault f
  | .ok (target, t) => .next (t.setPc target)

/-- 1nnn, JP nnn (R86). -/
def execJp (nnn : Addr12) (s : State) : Result := .next (s.setPc (zextAddr nnn))

/-- 2nnn, CALL nnn: the pushed value is the advanced pc (R87). -/
def execCall (nnn : Addr12) (s : State) : Result :=
  match s.push s.pc with
  | .error f => .fault f
  | .ok t => .next (t.setPc (zextAddr nnn))

/-- 3xkk, SE Vx, kk (R88). -/
def execSeImm (x : Reg) (kk : Byte) (s : State) : Result := skipIf (s.reg x == kk) s

/-- 4xkk, SNE Vx, kk (R89). -/
def execSneImm (x : Reg) (kk : Byte) (s : State) : Result := skipIf (s.reg x != kk) s

/-- 5xy0, SE Vx, Vy (R90). -/
def execSeReg (x y : Reg) (s : State) : Result := skipIf (s.reg x == s.reg y) s

/-- 9xy0, SNE Vx, Vy (R91). -/
def execSneReg (x y : Reg) (s : State) : Result := skipIf (s.reg x != s.reg y) s

/-- Bnnn, JP V0, nnn: the target is not reduced modulo 4096 (R92). -/
def execJpV0 (nnn : Addr12) (s : State) : Result :=
  .next (s.setPc (zextAddr nnn + zextByte (s.reg Reg.V0)))

end Sys2Proof.Machine
end

