-- ==== Sys2Proof/Machine/Display.lean ====
section
/-! DEFINITION. The display instructions 00E0 and Dxyn (spec 41_display.md R79 to R84). -/

namespace Sys2Proof.Machine

/-- 00E0, CLS (R79). -/
def execCls (s : State) : Result := .next { s with disp := clearDisplay }

/-- The effect of Dxyn once its sprite bytes are read: VF is cleared, the pixels toggle, VF is 1 on a collision (R80,
R81). -/
def drawSprite (mode : Config.VfAliasMode) (x y : Reg) (rows : List Byte) (s : State) : State :=
  let drawn := drawRows (spriteColumn mode x s) (spriteRow mode y s) 0 rows (s.disp, false)
  { s.setReg Reg.VF (boolByte drawn.2) with disp := drawn.1 }

/-- Dxyn under a given VF_ALIAS_MODE: every sprite byte is read, and checked, before anything changes (R80, R83). -/
def drawUnder (mode : Config.VfAliasMode) (x y : Reg) (n : Fin 16) (s : State) : Result :=
  match s.readBytes (baseAddr s) n.val with
  | .error f => .fault f
  | .ok rows => .next (drawSprite mode x y rows s)

/-- Dxyn, DRW Vx, Vy, n (R80). -/
def execDrw (x y : Reg) (n : Fin 16) (s : State) : Result := drawUnder aliasMode x y n s

end Sys2Proof.Machine
end

