-- ==== Sys2Proof/Machine/Index.lean ====
section
/-! DEFINITION. The address-register and memory instructions (spec 44_index_memory.md R109 to R115). Fx33, Fx55 and Fx65
leave I as it is. -/

namespace Sys2Proof.Machine

/-- Annn, LD I, nnn (R109). -/
def execLdI (nnn : Addr12) (s : State) : Result := .next (s.setI (zextAddr nnn))

/-- Fx1E, ADD I, Vx: 16 bits, no fault, no flag (R110). -/
def execAddI (x : Reg) (s : State) : Result := .next (s.setI (s.i + zextByte (s.reg x)))

/-- Fx29, LD F, Vx (R111). -/
def execLdF (x : Reg) (s : State) : Result := .next (s.setI (glyphAddr (s.reg x)))

/-- Fx33, LD B, Vx: three digits at I, I+1, I+2, or a fault with nothing written (R112). -/
def execLdB (x : Reg) (s : State) : Result := commit (s.writeBytes (baseAddr s) (bcdDigits (s.reg x)))

/-- Fx55, LD [I], Vx: V0 to V[x] at I on, or a fault with nothing written (R113). -/
def execStoreRegs (x : Reg) (s : State) : Result := commit (s.writeBytes (baseAddr s) (s.regsUpTo x))

/-- Fx65, LD Vx, [I]: V0 to V[x] from I on, or a fault with no register written (R114). -/
def execLoadRegs (x : Reg) (s : State) : Result :=
  match s.readBytes (baseAddr s) (x.val + 1) with
  | .error f => .fault f
  | .ok bytes => .next (s.loadRegsFrom 0 bytes)

end Sys2Proof.Machine
end

