-- ==== Sys2Proof/Machine/Timer.lean ====
section
/-! DEFINITION. The timer instructions (spec 45_timer.md R116, R117). The tick of the same step comes after them
(40_step_cycle.md R74). -/

namespace Sys2Proof.Machine

/-- Fx07, LD Vx, DT (R116). -/
def execLdVxDt (x : Reg) (s : State) : Result := .next (s.setReg x s.timer)

/-- Fx15, LD DT, Vx (R117). -/
def execLdDtVx (x : Reg) (s : State) : Result := .next (s.setTimer (s.reg x))

end Sys2Proof.Machine
end

