-- ==== Sys2Proof/Machine/Step.lean ====
section
/-! DEFINITION. The step (spec 40_step_cycle.md R67, R76): fetch, advance pc, decode, execute, tick the timer. -/

namespace Sys2Proof.Machine

/-- Execution of a fetched word on the state whose pc is already advanced (R70 to R72). -/
def execWord (policy : Config.UnknownPolicy) (w : Word) (s : State) : Result :=
  match decode w with
  | .ok i => exec i s
  | .error _ => unknownOpcode policy s

/-- The step under a given UNKNOWN_OPCODE_POLICY (R76). -/
def stepUnder (policy : Config.UnknownPolicy) (s : State) : Result :=
  match s.fetch with
  | .error f => .fault f
  | .ok w => finishStep (execWord policy w s.advancePc)

/-- One fetch-decode-execute cycle (R67). -/
def step (s : State) : Host.Outcome State Fault Refusal := stepUnder unknownPolicy s

/-- The state with a table row's word stored where `step` fetches its next instruction, at pc and pc + 1. A pc of 0xFFF or
above cannot fetch, so it moves to 0x200 then. Log entry 6. -/
def State.withFetchWord (s : State) (nbits w : Nat) : State :=
  let pc : Word := if s.pc.toNat + 1 < Config.memSize then s.pc else Config.pcReset
  { s with pc := pc, mem := s.mem.setBytes pc.toNat (tableBytes nbits w) }

end Sys2Proof.Machine
end

