-- ==== Sys2Proof/Machine/Transactions.lean ====
section
/-! DEFINITION. The host interface: the six transactions new, reset, load, step, display and inspect (spec
60_exceptions.md R131, R136), with construction and `load` as 70_reset_and_hazards.md R138 to R142 give them. FONT is an
argument (00_scope.md R6): it is fixed for a machine, and every construction and reset of the machine installs it. -/

namespace Sys2Proof.Machine

/-- The reset state for any FONT (R31, R32): every byte 0x00, then FONT copied to 0x000 to 0x04F (R138). -/
def State.resetWith (fontBytes : Vector Byte 80) : State :=
  { State.reset with mem := Memory.setBytes [] 0 fontBytes.toList }

/-- Construction and reset as a transaction of a machine with this FONT: all state to its reset value (R138). The random source is not touched, and a
seed changes nothing the model holds: every later draw is a fresh free byte whatever the seed (R139). Log entry 2. -/
def State.restart (fontBytes : Vector Byte 80) (s : State) : State :=
  { State.resetWith fontBytes with draws := s.draws }

/-- `load(bytes, base)`: all bytes or none, and no other state changes (R140, R141). -/
def State.load (s : State) (bytes : List Byte) (base : Nat) : Except Fault State :=
  if base + bytes.length > Config.memSize then .error .imageTooLarge
  else .ok { s with mem := s.mem.setBytes base bytes }

/-- The 2048 pixels in the order of their index, row-major from the top left (R22, R129). -/
def State.pixels (s : State) : List Bool := (List.finRange 2048).map s.pixel

/-- What `inspect` shows: the whole State of R30, the model's own draw counter left out. -/
structure Inspection where
  v : Vector Byte 16
  i : Word
  pc : Word
  sp : Byte
  stack : Vector Word 16
  timer : Byte
  disp : List Bool
  mem : List Byte
  deriving DecidableEq, Repr

/-- The state as the inspection port shows it, every stack slot and every memory byte included (R28, R131). -/
def State.inspection (s : State) : Inspection where
  v := s.v
  i := s.i
  pc := s.pc
  sp := s.sp
  stack := s.stack
  timer := s.timer
  disp := s.pixels
  mem := (List.range Config.memSize).map s.mem.get

/-- A request of the host (R131). The source gives no seed width, so a seed is a number. -/
inductive Transaction where
  /-- power-on, seeded from entropy or from a seed -/
  | new (seed : Option Nat)
  /-- reset, with a reseed if one is asked for -/
  | reset (reseed : Option Nat)
  /-- copy an image to memory; the base is 0x200 unless given -/
  | load (bytes : List Byte) (base : Nat := Config.programBase)
  /-- one fetch-decode-execute cycle -/
  | step
  /-- read the display -/
  | display
  /-- read the whole state -/
  | inspect
  deriving DecidableEq, Repr

/-- The core's answer to a request (R131). -/
inductive Response where
  | none
  | ok
  | fault (f : Fault)
  | pixels (p : List Bool)
  | inspection (v : Inspection)
  /-- The step had no meaning in this model; no step of this model answers so. -/
  | refused (r : Refusal)
  deriving DecidableEq, Repr

/-- A `step` request: after a fault the state is the state before it (40_step_cycle.md R75, 60_exceptions.md R122). -/
def State.stepRequest (s : State) : State × Response :=
  match step s with
  | .next t => (t, .ok)
  | .fault f => (s, .fault f)
  | .refused r => (s, .refused r)

/-- One transaction of a machine with this FONT, run to completion (R131, R136). -/
def transact (fontBytes : Vector Byte 80) (s : State) : Transaction → State × Response
  | .new _ => (s.restart fontBytes, .none)
  | .reset _ => (s.restart fontBytes, .none)
  | .load bytes base =>
    match s.load bytes base with
    | .ok t => (t, .ok)
    | .error f => (s, .fault f)
  | .step => s.stepRequest
  | .display => (s, .pixels s.pixels)
  | .inspect => (s, .inspection s.inspection)

/-- Transactions one after another, with the answers in order (R136). -/
def transactAll (fontBytes : Vector Byte 80) (s : State) : List Transaction → State × List Response
  | [] => (s, [])
  | t :: ts =>
    let (s', r) := transact fontBytes s t
    let (s'', rs) := transactAll fontBytes s' ts
    (s'', r :: rs)

end Sys2Proof.Machine
end

