-- ==== Sys2Proof/Safety.lean ====
section
/-! DEFINITION. The terms claims are stated in: what a step may leave unchanged, the invariant, and what a run is (spec
10_state.md R19, R30; 60_exceptions.md R135). -/

namespace Sys2Proof

/-- The instructions that write I (10_state.md R18). -/
def Instr.setsAddr : Instr → Bool
  | .ldI _ | .addI _ | .ldF _ => true
  | _ => false

/-- The instructions that write sp or a stack slot (10_state.md R19, R20). -/
def Instr.setsStack : Instr → Bool
  | .call _ | .ret => true
  | _ => false

/-- The instructions that change the display (10_state.md R22). -/
def Instr.setsDisplay : Instr → Bool
  | .cls | .drw _ _ _ => true
  | _ => false

/-- The instructions that write memory (10_state.md R23, 20_memory.md R42). -/
def Instr.storesBytes : Instr → Bool
  | .ldB _ | .storeRegs _ => true
  | _ => false

/-- The instructions that write pc (42_control_flow.md). -/
def Instr.setsPc : Instr → Bool
  | .ret | .jp _ | .call _ | .seImm _ _ | .sneImm _ _ | .seReg _ _ | .sneReg _ _ | .jpV0 _ => true
  | _ => false

/-- The instruction that draws from the random source (10_state.md R24). -/
def Instr.drawsByte : Instr → Bool
  | .rnd _ _ => true
  | _ => false

end Sys2Proof

namespace Sys2Proof.Machine

/-- Every separate piece of state (R30), down to one register, stack slot, pixel or memory byte. -/
inductive Component where
  | reg (r : Reg)
  | addr
  | pc
  | sp
  | slot (j : Fin 16)
  | timer
  | pixel (x : Fin 64) (y : Fin 32)
  | byte (a : Nat)
  | draws
  deriving DecidableEq, Repr

/-- The component reads the same in both states. -/
def Component.same (s t : State) : Component → Prop
  | .reg r => t.reg r = s.reg r
  | .addr => t.i = s.i
  | .pc => t.pc = s.pc
  | .sp => t.sp = s.sp
  | .slot j => t.slot j = s.slot j
  | .timer => t.timer = s.timer
  | .pixel x y => t.pixelAt x y = s.pixelAt x y
  | .byte a => t.mem.get a = s.mem.get a
  | .draws => t.draws = s.draws

/-- The frame: every component that is not written reads in t as in s. -/
def KeepsAllBut (written : Component → Prop) (s t : State) : Prop := ∀ c, ¬ written c → c.same s t

/-- What holds at reset and after every step: sp counts 0 to 16 entries (R19), memory is in its canonical form. -/
def State.Inv (s : State) : Prop := s.sp.toNat ≤ 16 ∧ s.mem.wf = true

/-- The reset values of 10_state.md R31 with the bytes of FONT as an argument; the random source, which has no value in
the spec, is left out. -/
def State.IsResetFor (t : State) (fontBytes : Vector Byte 80) : Prop :=
  (∀ r, t.reg r = 0) ∧ t.i = 0 ∧ t.pc = 0x200 ∧ t.sp = 0 ∧ (∀ j, t.slot j = 0) ∧ t.timer = 0 ∧
    (∀ x y, t.pixelAt x y = false) ∧
    (∀ (a : Nat) (h : a < 80), t.mem.get a = fontBytes[a]) ∧
    (∀ a, 80 ≤ a → a < 4096 → t.mem.get a = 0)

/-- A pc out of range faults at the next fetch, not before (42_control_flow.md R93). -/
def State.FaultsLateOutside (t : State) : Prop := 0xFFF ≤ t.pc.toNat → t.fetch = .error .memoryOutOfRange

/-- The two bytes at pc as a word, big-endian (20_memory.md R37). -/
def State.wordAtPc (s : State) : Word := wordOfBytes (s.mem.get s.pc.toNat) (s.mem.get (s.pc.toNat + 1))

/-- The instruction the next step runs, if pc is in range and the word matches a row. -/
def State.nextInstr (s : State) : Option Instr :=
  if s.pc.toNat < 0xFFF then (decode s.wordAtPc).toOption else none

/-- The faults of an instruction and their conditions, the `step` rows of 60_exceptions.md R119. -/
def instrFaults (s : State) : Instr → Fault → Prop
  | .drw _ _ n, f => f = .memoryOutOfRange ∧ 1 ≤ n.val ∧ s.i.toNat + n.val - 1 ≥ 4096
  | .ldB _, f => f = .memoryOutOfRange ∧ s.i.toNat + 2 ≥ 4096
  | .storeRegs x, f => f = .memoryOutOfRange ∧ s.i.toNat + x.val ≥ 4096
  | .loadRegs x, f => f = .memoryOutOfRange ∧ s.i.toNat + x.val ≥ 4096
  | .call _, f => f = .stackOverflow ∧ s.sp.toNat = 16
  | .ret, f => f = .stackUnderflow ∧ s.sp.toNat = 0
  | _, _ => False

/-- A run: some number of successful steps. -/
inductive Reaches : State → State → Prop where
  | refl (s : State) : Reaches s s
  | next (s t u : State) : Reaches s t → step t = .next u → Reaches s u

/-- A run is safe when no state it reaches faults or is refused: every step of it is Ok (00_scope.md R13). -/
def SafeFrom (s : State) : Prop := ∀ t, Reaches s t → ∃ u, step t = .next u

/-- The test programs' end of a run: pc addresses a word 1nnn whose nnn equals pc. A convention of the spec that says
nothing of the hardware (R135). -/
def State.atIdleLoop (s : State) : Bool :=
  match s.fetch with
  | .ok w =>
    match decode w with
    | .ok (.jp nnn) => zextAddr nnn == s.pc
    | _ => false
  | .error _ => false

end Sys2Proof.Machine
end

