-- ==== Sys2Proof/Certificates/Slice0/Obligations.lean ====
section
/-! DEFINITION. The statements for the provers. In every statement about `exec`, s is the state whose pc the step has
already advanced past the instruction (spec 40_step_cycle.md R69). -/

open Sys2Proof Sys2Proof.Machine

/-! ## Encoding (30_encoding.md) -/

/-- Every word an instruction encodes to decodes to that instruction, and every word that decodes to an instruction is
its encoding: no bit is dropped and none is free (R54, R55, R64). -/
def Obligations.DecodeInvertsEncode : Prop :=
  ∀ (w : Word) (i : Instr), decode w = .ok i ↔ encode i = w

/-- The bit ranges of R54's table, as arithmetic. -/
def Obligations.FieldsAreBitRanges : Prop :=
  ∀ w : Word,
    (fieldOp w).val = w.toNat / 4096 ∧ (fieldX w).val = w.toNat / 256 % 16 ∧
    (fieldY w).val = w.toNat / 16 % 16 ∧ (fieldN w).val = w.toNat % 16 ∧
    (fieldKk w).toNat = w.toNat % 256 ∧ (fieldNnn w).toNat = w.toNat % 4096

/-- Selection on op and on the sub-fields, word by word, and that a word matches at most one pattern (R58 to R63). -/
def Obligations.GroupsSelectInstructions : Prop :=
  (∀ r ∈ opcodeMap, ∀ r' ∈ opcodeMap, ∀ w, r.matchesWord w = true → r'.matchesWord w = true → r = r') ∧
  ∀ w : Word,
    ((fieldOp w).val = 0x0 → decode w =
      if w = 0x00E0 then .ok .cls else if w = 0x00EE then .ok .ret else .error .group0) ∧
    ((fieldOp w).val = 0x1 → decode w = .ok (.jp (fieldNnn w))) ∧
    ((fieldOp w).val = 0x2 → decode w = .ok (.call (fieldNnn w))) ∧
    ((fieldOp w).val = 0x3 → decode w = .ok (.seImm (fieldX w) (fieldKk w))) ∧
    ((fieldOp w).val = 0x4 → decode w = .ok (.sneImm (fieldX w) (fieldKk w))) ∧
    ((fieldOp w).val = 0x5 → decode w =
      if (fieldN w).val = 0 then .ok (.seReg (fieldX w) (fieldY w)) else .error .group5) ∧
    ((fieldOp w).val = 0x6 → decode w = .ok (.ldImm (fieldX w) (fieldKk w))) ∧
    ((fieldOp w).val = 0x7 → decode w = .ok (.addImm (fieldX w) (fieldKk w))) ∧
    ((fieldOp w).val = 0x8 →
      ((fieldN w).val = 0x0 → decode w = .ok (.ldReg (fieldX w) (fieldY w))) ∧
      ((fieldN w).val = 0x1 → decode w = .ok (.or (fieldX w) (fieldY w))) ∧
      ((fieldN w).val = 0x2 → decode w = .ok (.and (fieldX w) (fieldY w))) ∧
      ((fieldN w).val = 0x3 → decode w = .ok (.xor (fieldX w) (fieldY w))) ∧
      ((fieldN w).val = 0x4 → decode w = .ok (.addReg (fieldX w) (fieldY w))) ∧
      ((fieldN w).val = 0x5 → decode w = .ok (.sub (fieldX w) (fieldY w))) ∧
      ((fieldN w).val = 0x6 → decode w = .ok (.shr (fieldX w) (fieldY w))) ∧
      ((fieldN w).val = 0x7 → decode w = .ok (.subn (fieldX w) (fieldY w))) ∧
      ((fieldN w).val = 0xE → decode w = .ok (.shl (fieldX w) (fieldY w))) ∧
      ((fieldN w).val ∈ [0x8, 0x9, 0xA, 0xB, 0xC, 0xD, 0xF] → decode w = .error .group8)) ∧
    ((fieldOp w).val = 0x9 → decode w =
      if (fieldN w).val = 0 then .ok (.sneReg (fieldX w) (fieldY w)) else .error .group9) ∧
    ((fieldOp w).val = 0xA → decode w = .ok (.ldI (fieldNnn w))) ∧
    ((fieldOp w).val = 0xB → decode w = .ok (.jpV0 (fieldNnn w))) ∧
    ((fieldOp w).val = 0xC → decode w = .ok (.rnd (fieldX w) (fieldKk w))) ∧
    ((fieldOp w).val = 0xD → decode w = .ok (.drw (fieldX w) (fieldY w) (fieldN w))) ∧
    ((fieldOp w).val = 0xE → decode w = .error .groupE) ∧
    ((fieldOp w).val = 0xF →
      ((fieldKk w).toNat = 0x07 → decode w = .ok (.ldVxDt (fieldX w))) ∧
      ((fieldKk w).toNat = 0x15 → decode w = .ok (.ldDtVx (fieldX w))) ∧
      ((fieldKk w).toNat = 0x1E → decode w = .ok (.addI (fieldX w))) ∧
      ((fieldKk w).toNat = 0x29 → decode w = .ok (.ldF (fieldX w))) ∧
      ((fieldKk w).toNat = 0x33 → decode w = .ok (.ldB (fieldX w))) ∧
      ((fieldKk w).toNat = 0x55 → decode w = .ok (.storeRegs (fieldX w))) ∧
      ((fieldKk w).toNat = 0x65 → decode w = .ok (.loadRegs (fieldX w))) ∧
      ((fieldKk w).toNat ∉ [0x07, 0x15, 0x1E, 0x29, 0x33, 0x55, 0x65] → decode w = .error .groupF))

/-- A word decodes to the instruction of the one row it matches under mask and match, and is unknown when it matches no
row (R64, R65). That rows do not overlap is the spec's own inference ("each pair of rows differs in a bit both masks
fix"). -/
def Obligations.OpcodeMapSelectsTheRow : Prop :=
  ∀ w : Word,
    (∀ i, decode w = .ok i → ∀ k, (∃ r, opcodeMap[k]? = some r ∧ r.matchesWord w = true) ↔ k + 1 = i.row) ∧
    ((∃ u, decode w = .error u) ↔ ∀ r ∈ opcodeMap, r.matchesWord w = false)

/-- Words written out from R55's layouts decode to what they stand for. A sanity statement. -/
def Obligations.SampleWordsDecode : Prop :=
  decode 0x00E0 = .ok .cls ∧ decode 0x1ABC = .ok (.jp 0xABC) ∧ decode 0x3342 = .ok (.seImm 0x3 0x42) ∧
  decode 0x80F5 = .ok (.sub 0x0 0xF) ∧ decode 0xA2F0 = .ok (.ldI 0x2F0) ∧ decode 0xD12F = .ok (.drw 0x1 0x2 0xF) ∧
  decode 0xF733 = .ok (.ldB 0x7) ∧ decode 0xF107 = .ok (.ldVxDt 0x1) ∧ decode 0x5121 = .error .group5 ∧
  decode 0x0001 = .error .group0

/-- Every instruction has a source term that assembles to it, and the assembler refuses exactly the ill-formed terms
(R66). The notation is the spec's own choice (92_eei_decisions.md D17). -/
def Obligations.AssemblerRoundTrip : Prop :=
  (∀ i : Instr, assemble (disassemble i) = some i) ∧
  (∀ a : AsmInstr, (assemble a).isSome = a.wellFormed)

/-! ## The step (40_step_cycle.md) -/

/-- The step as R76 writes it: a fetch fault; the decoded instruction executed on the state whose pc is advanced, then
the tick; an unknown word as a no-op, or IllegalOpcode under the policy `fault`; and a fault leaves the old state. That
`step` takes an unknown word as a no-op is log entry 4 (decision D4); that a fault leaves the old state is the spec's own
choice (R75, decision D2). -/
def Obligations.StepIsFetchDecodeExecuteTick : Prop :=
  (∀ s : State, 0xFFF ≤ s.pc.toNat → step s = .fault .memoryOutOfRange) ∧
  (∀ (s : State) (i : Instr), s.pc.toNat < 0xFFF → decode s.wordAtPc = .ok i →
    step s =
      match exec i { s with pc := s.pc + 2 } with
      | .next t => .next { t with timer := if t.timer = 0 then 0 else t.timer - 1 }
      | .fault f => .fault f
      | .refused r => .refused r) ∧
  (∀ (s : State) (u : UnknownOpcode), s.pc.toNat < 0xFFF → decode s.wordAtPc = .error u →
    step s = .next { s with pc := s.pc + 2, timer := if s.timer = 0 then 0 else s.timer - 1 } ∧
    stepUnder .fault s = .fault .illegalOpcode) ∧
  (∀ (fontBytes : Vector Byte 80) (s : State) (f : Fault), step s = .fault f →
    transact fontBytes s .step = (s, .fault f))

/-- Fetch forms the word big-endian from the bytes at pc and pc + 1, at any alignment, and faults exactly when pc is
0xFFF or above (R68). -/
def Obligations.FetchReadsTwoBytes : Prop :=
  ∀ s : State,
    (s.pc.toNat < 0xFFF → ∃ w, s.fetch = .ok w ∧
      w.toNat = 256 * (s.mem.get s.pc.toNat).toNat + (s.mem.get (s.pc.toNat + 1)).toNat) ∧
    (0xFFF ≤ s.pc.toNat → s.fetch = .error .memoryOutOfRange)

/-- Every successful step ticks the timer once, after the instruction's own write to it (R74, 45_timer.md R117); the
value stops at 0. That the tick follows the write is decision D16, that an unknown word succeeds is log entry 4. -/
def Obligations.TimerCountsSteps : Prop :=
  ∀ s t : State, step s = .next t →
    (∀ x, s.nextInstr = some (.ldDtVx x) → t.timer.toNat = (s.reg x).toNat - 1) ∧
    ((∀ x, s.nextInstr ≠ some (.ldDtVx x)) → t.timer.toNat = s.timer.toNat - 1) ∧
    (∀ x, s.nextInstr = some (.ldVxDt x) → t.reg x = s.timer)

/-- The table of R119: the faults of a step and of a load, each exactly under its condition, and no other. That `step`
raises no fault on an unknown word is log entry 4 (decision D4). -/
def Obligations.FaultsExactlyWhen : Prop :=
  (∀ s : State, s.sp.toNat ≤ 16 → ∀ f : Fault, step s = .fault f ↔
    (0xFFF ≤ s.pc.toNat ∧ f = .memoryOutOfRange) ∨ (∃ i, s.nextInstr = some i ∧ instrFaults s i f)) ∧
  (∀ (s : State) (bytes : List Byte) (base : Nat) (f : Fault),
    s.load bytes base = .error f ↔ f = .imageTooLarge ∧ base + bytes.length > 4096) ∧
  (∀ s : State, stepUnder .fault s = .fault .illegalOpcode ↔
    s.pc.toNat < 0xFFF ∧ ∃ u, decode s.wordAtPc = .error u)

/-- A step ends in a next state or a fault, never in a refusal; a load in a next state or ImageTooLarge (00_scope.md
R13). -/
def Obligations.StepEndsOkOrFault : Prop :=
  (∀ s : State, (∃ t, step s = .next t) ∨ (∃ f, step s = .fault f)) ∧
  (∀ (s : State) (bytes : List Byte) (base : Nat),
    (∃ t, s.load bytes base = .ok t) ∨ s.load bytes base = .error .imageTooLarge)

/-- Every step keeps sp in 0 to 16 (10_state.md R19) and memory in its canonical form. -/
def Obligations.StepKeepsInvariant : Prop :=
  ∀ s t : State, s.Inv → step s = .next t → t.Inv

/-- The invariant holds after reset. -/
def Obligations.ResetHoldsInvariant : Prop := State.reset.Inv

/-- Every host transaction keeps the invariant too, whatever FONT is (60_exceptions.md R131). -/
def Obligations.TransactionsKeepInvariant : Prop :=
  ∀ (fontBytes : Vector Byte 80) (s : State) (r : Transaction), s.Inv → (transact fontBytes s r).1.Inv

/-- The random source is seen by Cxkk only: from states that differ in nothing but the next draw, every other step does
the same (40_step_cycle.md R77; the spec's own inference). Holds for every value of the model's draw counter. -/
def Obligations.DrawsMatterToRndOnly : Prop :=
  ∀ (s : State) (k : Nat), (∀ x kk, s.nextInstr ≠ some (.rnd x kk)) →
    step { s with draws := k } =
      match step s with
      | .next t => .next { t with draws := k }
      | .fault f => .fault f
      | .refused r => .refused r

/-- Which instructions change which part, over whole steps, unknown words included (as no-ops, log entry 4): I (R18), sp and the stack (R19, R20),
the display (R22), memory (R23), pc past the next instruction (40_step_cycle.md R69). -/
def Obligations.PartsChangeOnlyByTheirInstructions : Prop :=
  ∀ s t : State, step s = .next t →
    ((∀ i, s.nextInstr = some i → i.setsAddr = false) → t.i = s.i) ∧
    ((∀ i, s.nextInstr = some i → i.setsStack = false) → t.sp = s.sp ∧ ∀ j, t.slot j = s.slot j) ∧
    ((∀ i, s.nextInstr = some i → i.setsDisplay = false) → ∀ x y, t.pixelAt x y = s.pixelAt x y) ∧
    ((∀ i, s.nextInstr = some i → i.storesBytes = false) → ∀ a, t.mem.get a = s.mem.get a) ∧
    ((∀ i, s.nextInstr = some i → i.setsPc = false) → t.pc = s.pc + 2) ∧
    ((∀ i, s.nextInstr = some i → i.drawsByte = false) → t.draws = s.draws)

/-- A jump to its own address is an idle loop: every step of it is Ok, changes the timer only, and is at the loop again
(R78, 60_exceptions.md R135). -/
def Obligations.SelfJumpIdles : Prop :=
  ∀ s : State, s.atIdleLoop = true →
    ∃ t, step s = .next t ∧ KeepsAllBut (fun c => c = .timer) s t ∧ t.atIdleLoop = true

/-- After a reset and a load at 0x200 the first step runs the image's first word (70_reset_and_hazards.md R142, whose order
this is); before them nothing of the program has run. -/
def Obligations.BootRunsTheFirstWord : Prop :=
  ∀ (fontBytes : Vector Byte 80) (s : State) (b0 b1 : Byte) (rest : List Byte) (i : Instr), rest.length + 2 ≤ 3584 →
    decode (wordOfBytes b0 b1) = .ok i →
    (transactAll fontBytes s [.reset none, .load (b0 :: b1 :: rest)]).2 = [.none, .ok] ∧
    (transactAll fontBytes s [.reset none, .load (b0 :: b1 :: rest)]).1.pc = 0x200 ∧
    (transactAll fontBytes s [.reset none, .load (b0 :: b1 :: rest)]).1.nextInstr = some i

/-- A word placed by withFetchWord is what the next step fetches and decodes, at every pc, and its table row's decoding is
the same instruction. A property of the model's interface (log entry 6). -/
def Obligations.PlacedWordIsFetched : Prop :=
  ∀ (s : State) (i : Instr),
    decodeTableWord 16 (encode i).toNat = some i ∧
    (s.withFetchWord 16 (encode i).toNat).nextInstr = some i ∧
    (s.pc.toNat < 0xFFF → KeepsAllBut (fun c => c = .byte s.pc.toNat ∨ c = .byte (s.pc.toNat + 1)) s
      (s.withFetchWord 16 (encode i).toNat))

/-! ## Frames (92_eei_decisions.md D28: an instruction changes only the state its row names) -/

/-- The instructions with one destination register change that register and nothing else: 6xkk, 7xkk, 8xy0 to 8xy3,
Fx07. -/
def Obligations.FrameOneRegister : Prop :=
  ∀ (x y : Reg) (kk : Byte) (s t : State),
    (exec (.ldImm x kk) s = .next t ∨ exec (.addImm x kk) s = .next t ∨ exec (.ldReg x y) s = .next t ∨
      exec (.or x y) s = .next t ∨ exec (.and x y) s = .next t ∨ exec (.xor x y) s = .next t ∨
      exec (.ldVxDt x) s = .next t) →
    KeepsAllBut (fun c => c = .reg x) s t

/-- The instructions with a flag change V[x] and VF and nothing else: 8xy4 to 8xy7, 8xyE. -/
def Obligations.FrameRegisterAndFlag : Prop :=
  ∀ (x y : Reg) (s t : State),
    (exec (.addReg x y) s = .next t ∨ exec (.sub x y) s = .next t ∨ exec (.shr x y) s = .next t ∨
      exec (.subn x y) s = .next t ∨ exec (.shl x y) s = .next t) →
    KeepsAllBut (fun c => c = .reg x ∨ c = .reg Reg.VF) s t

/-- The jumps and skips change pc only; 2nnn pc, sp and the slot it pushes to; 00EE pc and sp. -/
def Obligations.FrameControlFlow : Prop :=
  ∀ (x y : Reg) (kk : Byte) (nnn : Addr12) (s t : State),
    ((exec (.jp nnn) s = .next t ∨ exec (.jpV0 nnn) s = .next t ∨ exec (.seImm x kk) s = .next t ∨
      exec (.sneImm x kk) s = .next t ∨ exec (.seReg x y) s = .next t ∨ exec (.sneReg x y) s = .next t) →
      KeepsAllBut (fun c => c = .pc) s t) ∧
    (exec (.call nnn) s = .next t →
      KeepsAllBut (fun c => c = .pc ∨ c = .sp ∨ ∃ j : Fin 16, j.val = s.sp.toNat ∧ c = .slot j) s t) ∧
    (exec .ret s = .next t → KeepsAllBut (fun c => c = .pc ∨ c = .sp) s t)

/-- Annn, Fx1E and Fx29 change I only; Fx15 the timer only; Cxkk V[x] and the draw counter only. -/
def Obligations.FrameAddressTimerRandom : Prop :=
  ∀ (x : Reg) (kk : Byte) (nnn : Addr12) (s t : State),
    ((exec (.ldI nnn) s = .next t ∨ exec (.addI x) s = .next t ∨ exec (.ldF x) s = .next t) →
      KeepsAllBut (fun c => c = .addr) s t) ∧
    (exec (.ldDtVx x) s = .next t → KeepsAllBut (fun c => c = .timer) s t) ∧
    (exec (.rnd x kk) s = .next t → KeepsAllBut (fun c => c = .reg x ∨ c = .draws) s t)

/-- Fx33 changes the three bytes at I only, Fx55 the x + 1 bytes at I only, Fx65 V0 to V[x] only; none changes I. -/
def Obligations.FrameMemoryInstructions : Prop :=
  ∀ (x : Reg) (s t : State),
    (exec (.ldB x) s = .next t → KeepsAllBut (fun c => ∃ k, k < 3 ∧ c = .byte (baseAddr s + k)) s t) ∧
    (exec (.storeRegs x) s = .next t →
      KeepsAllBut (fun c => ∃ k, k < x.val + 1 ∧ c = .byte (baseAddr s + k)) s t) ∧
    (exec (.loadRegs x) s = .next t → KeepsAllBut (fun c => ∃ r : Reg, r ≤ x ∧ c = .reg r) s t)

/-- 00E0 changes pixels only; Dxyn pixels and VF only, so neither I nor memory (41_display.md R79, R83). -/
def Obligations.FrameDisplay : Prop :=
  ∀ (x y : Reg) (n : Fin 16) (s t : State),
    (exec .cls s = .next t → KeepsAllBut (fun c => ∃ px py, c = .pixel px py) s t) ∧
    (exec (.drw x y n) s = .next t →
      KeepsAllBut (fun c => c = .reg Reg.VF ∨ ∃ px py, c = .pixel px py) s t)

/-! ## Memory (20_memory.md) -/

/-- Memories in canonical form that read alike at every address are equal as data. A property of the model's
representation of mem[0..4095] (10_state.md R23). -/
def Obligations.CanonicalMemoryIsUnique : Prop :=
  ∀ m m' : Memory, m.wf = true → m'.wf = true → (∀ a, m.get a = m'.get a) → m = m'

/-- MemRead and MemWrite check the byte address, an unbounded number, against 4096 (R40). -/
def Obligations.AccessIsRangeChecked : Prop :=
  ∀ (s : State) (a : Nat) (b : Byte),
    (a ≥ 4096 → s.memRead a = .error .memoryOutOfRange ∧ s.memWrite a b = .error .memoryOutOfRange) ∧
    (a < 4096 → s.memRead a = .ok (s.mem.get a) ∧
      ∃ t, s.memWrite a b = .ok t ∧ t.memRead a = .ok b ∧ ∀ c, c ≠ a → t.memRead c = s.memRead c)

/-- The bytes Fx33 and Fx55 store are what the very next fetch reads, from whatever pc it reaches them, a word with one
stored byte included (R145). -/
def Obligations.StoresReachTheNextFetch : Prop :=
  ∀ (x : Reg) (s t : State) (p : Word), p.toNat < 0xFFF →
    (exec (.ldB x) s = .next t → ∃ w, (t.setPc p).fetch = .ok w ∧
      ∀ (k : Nat) (h : k < (bcdDigits (s.reg x)).length),
        (p.toNat = s.i.toNat + k → highByte w = (bcdDigits (s.reg x))[k]) ∧
        (p.toNat + 1 = s.i.toNat + k → lowByte w = (bcdDigits (s.reg x))[k])) ∧
    (exec (.storeRegs x) s = .next t → ∃ w, (t.setPc p).fetch = .ok w ∧
      ∀ r : Reg, r ≤ x →
        (p.toNat = s.i.toNat + r.val → highByte w = s.reg r) ∧
        (p.toNat + 1 = s.i.toNat + r.val → lowByte w = s.reg r))

/-! ## Reset, load and the host's ports (10_state.md, 70_reset_and_hazards.md, 60_exceptions.md) -/

/-- The reset state for every FONT: registers, I, sp, stack, timer and display zero, pc 0x200, FONT at 0x000 to 0x04F and
zero above (R31). -/
def Obligations.ResetStateHoldsFontAndZeros : Prop :=
  ∀ fontBytes : Vector Byte 80, (State.resetWith fontBytes).IsResetFor fontBytes

/-- For every FONT, construction and reset, from any state and with any seed, answer nothing and leave the reset values with
that FONT installed (R138); State.reset has them when FONT is the table this model installs (the premise: its bytes are
PRESUMED, log entry 3). -/
def Obligations.NewAndResetReachTheResetState : Prop :=
  ∀ (fontBytes : Vector Byte 80) (s : State) (seed : Option Nat),
    (transact fontBytes s (.new seed)).2 = .none ∧ (transact fontBytes s (.reset seed)).2 = .none ∧
    (transact fontBytes s (.new seed)).1.IsResetFor fontBytes ∧
    (transact fontBytes s (.reset seed)).1.IsResetFor fontBytes ∧
    (fontBytes.toList = font → State.reset.IsResetFor fontBytes)

/-- load writes all the image or, when base + len > 4096, nothing, and touches memory only (R140, R141; the edge cases are
the spec's decision D19). -/
def Obligations.LoadIsAllOrNothing : Prop :=
  ∀ (fontBytes : Vector Byte 80) (s : State) (bytes : List Byte) (base : Nat),
    (base + bytes.length > 4096 → transact fontBytes s (.load bytes base) = (s, .fault .imageTooLarge)) ∧
    (base + bytes.length ≤ 4096 → ∃ t, transact fontBytes s (.load bytes base) = (t, .ok) ∧
      (∀ (k : Nat) (h : k < bytes.length), t.mem.get (base + k) = bytes[k]) ∧
      KeepsAllBut (fun c => ∃ k, k < bytes.length ∧ c = .byte (base + k)) s t)

/-- display and inspect change no state; the display port gives the 2048 pixels row-major from the top left, the
inspection port every register, slot and byte (R131, R137; D25). -/
def Obligations.HostPortsOnlyRead : Prop :=
  ∀ (fontBytes : Vector Byte 80) (s : State),
    transact fontBytes s .display = (s, .pixels s.pixels) ∧
    transact fontBytes s .inspect = (s, .inspection s.inspection) ∧
    s.pixels.length = 2048 ∧
    (∀ (x : Fin 64) (y : Fin 32), s.pixels[y.val * 64 + x.val]? = some (s.pixelAt x y)) ∧
    s.inspection.mem.length = 4096 ∧
    (∀ a, a < 4096 → s.inspection.mem[a]? = some (s.mem.get a)) ∧
    s.inspection.v = s.v ∧ s.inspection.i = s.i ∧ s.inspection.pc = s.pc ∧ s.inspection.sp = s.sp ∧
    s.inspection.stack = s.stack ∧ s.inspection.timer = s.timer ∧ s.inspection.disp = s.pixels

/-! ## Registers and ALU (43_alu.md) -/

/-- The exact 8-bit results and flags every instruction of the family uses (R94). -/
def Obligations.RegisterArithmeticWraps : Prop :=
  ∀ a b : Byte,
    (addWrap a b).toNat = (a.toNat + b.toNat) % 256 ∧
    carryFlag a b = (if a.toNat + b.toNat > 255 then 1 else 0) ∧
    ((subWrap a b).toNat : Int) = ((a.toNat : Int) - b.toNat) % 256 ∧
    noBorrowFlag a b = (if a.toNat > b.toNat then 1 else 0) ∧
    (shiftRight a).toNat = a.toNat / 2 ∧ (lowBitFlag a).toNat = a.toNat % 2 ∧
    (shiftLeft a).toNat = a.toNat * 2 % 256 ∧ (highBitFlag a).toNat = a.toNat / 128

/-- 6xkk (R96). -/
def Obligations.LdImmLoadsImmediate : Prop :=
  ∀ (x : Reg) (kk : Byte) (s : State),
    (encode (.ldImm x kk)).toNat = 0x6000 + 0x100 * x.val + kk.toNat ∧
    ∃ t, exec (.ldImm x kk) s = .next t ∧ t.reg x = kk ∧ ∀ r, r ≠ x → t.reg r = s.reg r

/-- 7xkk: no flag; VF changes only as the destination (R97). -/
def Obligations.AddImmWrapsWithoutFlag : Prop :=
  ∀ (x : Reg) (kk : Byte) (s : State),
    (encode (.addImm x kk)).toNat = 0x7000 + 0x100 * x.val + kk.toNat ∧
    ∃ t, exec (.addImm x kk) s = .next t ∧ (t.reg x).toNat = ((s.reg x).toNat + kk.toNat) % 256 ∧
      ∀ r, r ≠ x → t.reg r = s.reg r

/-- 8xy0 (R98). -/
def Obligations.LdRegCopies : Prop :=
  ∀ (x y : Reg) (s : State),
    (encode (.ldReg x y)).toNat = 0x8000 + 0x100 * x.val + 0x10 * y.val ∧
    ∃ t, exec (.ldReg x y) s = .next t ∧ t.reg x = s.reg y ∧ ∀ r, r ≠ x → t.reg r = s.reg r

/-- 8xy2 and 8xy3 (R100, R101), bit by bit; with x = y, AND changes nothing and XOR gives 0. -/
def Obligations.AndXorAreBitwise : Prop :=
  ∀ (x y : Reg) (s : State),
    (encode (.and x y)).toNat = 0x8002 + 0x100 * x.val + 0x10 * y.val ∧
    (encode (.xor x y)).toNat = 0x8003 + 0x100 * x.val + 0x10 * y.val ∧
    (∃ t, exec (.and x y) s = .next t ∧ (∀ r, r ≠ x → t.reg r = s.reg r) ∧
      (∀ b, (t.reg x).getLsbD b = ((s.reg x).getLsbD b && (s.reg y).getLsbD b)) ∧ (x = y → t.reg x = s.reg x)) ∧
    (∃ t, exec (.xor x y) s = .next t ∧ (∀ r, r ≠ x → t.reg r = s.reg r) ∧
      (∀ b, (t.reg x).getLsbD b = ((s.reg x).getLsbD b ^^ (s.reg y).getLsbD b)) ∧ (x = y → t.reg x = 0))

/-- 8xy1, bit by bit; VF is not reset, which is the spec's decision D28 (R99). -/
def Obligations.OrIsBitwise : Prop :=
  ∀ (x y : Reg) (s : State),
    (encode (.or x y)).toNat = 0x8001 + 0x100 * x.val + 0x10 * y.val ∧
    ∃ t, exec (.or x y) s = .next t ∧ (∀ r, r ≠ x → t.reg r = s.reg r) ∧
      (∀ b, (t.reg x).getLsbD b = ((s.reg x).getLsbD b || (s.reg y).getLsbD b)) ∧ (x = y → t.reg x = s.reg x)

/-- 8xy4, VF as source and as destination included: with x = 0xF the carry is lost (R102). -/
def Obligations.AddRegSetsCarry : Prop :=
  ∀ (x y : Reg) (s : State),
    (encode (.addReg x y)).toNat = 0x8004 + 0x100 * x.val + 0x10 * y.val ∧
    ∃ t, exec (.addReg x y) s = .next t ∧
      (t.reg x).toNat = ((s.reg x).toNat + (s.reg y).toNat) % 256 ∧
      (x ≠ Reg.VF → t.reg Reg.VF = if (s.reg x).toNat + (s.reg y).toNat > 255 then 1 else 0) ∧
      ∀ r, r ≠ x → r ≠ Reg.VF → t.reg r = s.reg r

/-- 8xy5 and 8xy7: the difference modulo 256 and the strict no-borrow flag of the values before the instruction; for
x = y both are 0, whatever x is (R103, R105). The forms with one operand VF are in AliasTableOfVF. -/
def Obligations.SubtractSetsNoBorrow : Prop :=
  ∀ (x y : Reg) (s : State),
    (encode (.sub x y)).toNat = 0x8005 + 0x100 * x.val + 0x10 * y.val ∧
    (encode (.subn x y)).toNat = 0x8007 + 0x100 * x.val + 0x10 * y.val ∧
    (∃ t, exec (.sub x y) s = .next t ∧
      (x ≠ Reg.VF → t.reg Reg.VF = if (s.reg x).toNat > (s.reg y).toNat then 1 else 0) ∧
      (x ≠ Reg.VF → y ≠ Reg.VF →
        ((t.reg x).toNat : Int) = (((s.reg x).toNat : Int) - (s.reg y).toNat) % 256) ∧
      (x = y → t.reg x = 0 ∧ t.reg Reg.VF = 0) ∧ ∀ r, r ≠ x → r ≠ Reg.VF → t.reg r = s.reg r) ∧
    (∃ t, exec (.subn x y) s = .next t ∧
      (x ≠ Reg.VF → t.reg Reg.VF = if (s.reg y).toNat > (s.reg x).toNat then 1 else 0) ∧
      (x ≠ Reg.VF → y ≠ Reg.VF →
        ((t.reg x).toNat : Int) = (((s.reg y).toNat : Int) - (s.reg x).toNat) % 256) ∧
      (x = y → t.reg x = 0 ∧ t.reg Reg.VF = 0) ∧ ∀ r, r ≠ x → r ≠ Reg.VF → t.reg r = s.reg r)

/-- 8xy6 and 8xyE: logical shifts of V[x] by one, the bit shifted out in VF; V[y] has no effect, whatever y is (R104,
R106). With x = 0xF the result is in AliasTableOfVF. -/
def Obligations.ShiftsPutTheLostBitInVF : Prop :=
  ∀ (x y y' : Reg) (s : State),
    (encode (.shr x y)).toNat = 0x8006 + 0x100 * x.val + 0x10 * y.val ∧
    (encode (.shl x y)).toNat = 0x800E + 0x100 * x.val + 0x10 * y.val ∧
    exec (.shr x y) s = exec (.shr x y') s ∧ exec (.shl x y) s = exec (.shl x y') s ∧
    (∃ t, exec (.shr x y) s = .next t ∧
      (x ≠ Reg.VF → (t.reg x).toNat = (s.reg x).toNat / 2 ∧ (t.reg Reg.VF).toNat = (s.reg x).toNat % 2) ∧
      ∀ r, r ≠ x → r ≠ Reg.VF → t.reg r = s.reg r) ∧
    (∃ t, exec (.shl x y) s = .next t ∧
      (x ≠ Reg.VF → (t.reg x).toNat = (s.reg x).toNat * 2 % 256 ∧ (t.reg Reg.VF).toNat = (s.reg x).toNat / 128) ∧
      ∀ r, r ≠ x → r ≠ Reg.VF → t.reg r = s.reg r)

/-- R95's table for both values of VF_ALIAS_MODE, an open parameter (decision D6, log entry 1). a and b are V[x] and V[y]
before the instruction, f the flag. -/
def Obligations.AliasTableOfVF : Prop :=
  ∀ (mode : Config.VfAliasMode) (x y : Reg) (s : State),
    let a := s.reg x
    let b := s.reg y
    let one (c : Prop) [Decidable c] : Byte := if c then 1 else 0
    (aliasMode = mode → exec (.sub x y) s = .next (subUnder mode x y s) ∧
      exec (.shr x y) s = .next (shrUnder mode x s) ∧ exec (.subn x y) s = .next (subnUnder mode x y s) ∧
      exec (.shl x y) s = .next (shlUnder mode x s)) ∧
    (x = Reg.VF → y ≠ Reg.VF → (subUnder mode x y s).reg Reg.VF =
      match mode with | .latched => a - b | .sequential => one (a.toNat > b.toNat) - b) ∧
    (y = Reg.VF → x ≠ Reg.VF → (subUnder mode x y s).reg x =
      match mode with | .latched => a - b | .sequential => a - one (a.toNat > b.toNat)) ∧
    (y = Reg.VF → x ≠ Reg.VF → (subUnder mode x y s).reg Reg.VF = one (a.toNat > b.toNat)) ∧
    (x = Reg.VF → (shrUnder mode x s).reg Reg.VF = match mode with | .latched => a >>> 1 | .sequential => 0) ∧
    (x = Reg.VF → y ≠ Reg.VF → (subnUnder mode x y s).reg Reg.VF =
      match mode with | .latched => b - a | .sequential => b - one (b.toNat > a.toNat)) ∧
    (y = Reg.VF → x ≠ Reg.VF → (subnUnder mode x y s).reg x =
      match mode with | .latched => b - a | .sequential => one (b.toNat > a.toNat) - a) ∧
    (y = Reg.VF → x ≠ Reg.VF → (subnUnder mode x y s).reg Reg.VF = one (b.toNat > a.toNat)) ∧
    (x = Reg.VF → (shlUnder mode x s).reg Reg.VF =
      match mode with | .latched => a <<< 1 | .sequential => one (a.getLsbD 7 = true) <<< 1) ∧
    (x = Reg.VF → y = Reg.VF → (subUnder mode x y s).reg Reg.VF = 0 ∧ (subnUnder mode x y s).reg Reg.VF = 0) ∧
    (spriteColumn mode x s = if x = Reg.VF ∧ mode = .sequential then 0 else a.toNat % 64) ∧
    (spriteRow mode y s = if y = Reg.VF ∧ mode = .sequential then 0 else b.toNat % 32)

/-- Cxkk ANDs the next free byte with kk and uses the draw up (R107; the draw is decision D13, log entry 2). It holds for
every value of the draw counter and whatever the byte is. -/
def Obligations.RndMasksADraw : Prop :=
  ∀ (x : Reg) (kk : Byte) (s : State),
    (encode (.rnd x kk)).toNat = 0xC000 + 0x100 * x.val + kk.toNat ∧
    ∃ t r, exec (.rnd x kk) s = .next t ∧ r = Config.randByte s.draws ∧ t.reg x = r &&& kk ∧
      (kk = 0 → t.reg x = 0) ∧ (kk = 0xFF → t.reg x = r) ∧
      (∀ b, kk.getLsbD b = false → (t.reg x).getLsbD b = false) ∧
      (∀ q, q ≠ x → t.reg q = s.reg q) ∧ t.draws = s.draws + 1

/-! ## Control flow (42_control_flow.md) -/

/-- 1nnn (R86). -/
def Obligations.JpSetsPc : Prop :=
  ∀ (nnn : Addr12) (s : State),
    (encode (.jp nnn)).toNat = 0x1000 + nnn.toNat ∧
    ∃ t, exec (.jp nnn) s = .next t ∧ t.pc.toNat = nnn.toNat ∧ (∀ r, t.reg r = s.reg r) ∧ t.FaultsLateOutside

/-- 3xkk, 4xkk, 5xy0 and 9xy0: pc moves 2 further exactly when the condition holds; no register changes (R88 to R91). -/
def Obligations.SkipsPassOverTwoBytes : Prop :=
  ∀ (x y : Reg) (kk : Byte) (s : State),
    (encode (.seImm x kk)).toNat = 0x3000 + 0x100 * x.val + kk.toNat ∧
    (encode (.sneImm x kk)).toNat = 0x4000 + 0x100 * x.val + kk.toNat ∧
    (encode (.seReg x y)).toNat = 0x5000 + 0x100 * x.val + 0x10 * y.val ∧
    (encode (.sneReg x y)).toNat = 0x9000 + 0x100 * x.val + 0x10 * y.val ∧
    (∃ t, exec (.seImm x kk) s = .next t ∧ (∀ r, t.reg r = s.reg r) ∧ t.FaultsLateOutside ∧
      t.pc.toNat = if s.reg x = kk then (s.pc.toNat + 2) % 65536 else s.pc.toNat) ∧
    (∃ t, exec (.sneImm x kk) s = .next t ∧ (∀ r, t.reg r = s.reg r) ∧ t.FaultsLateOutside ∧
      t.pc.toNat = if s.reg x ≠ kk then (s.pc.toNat + 2) % 65536 else s.pc.toNat) ∧
    (∃ t, exec (.seReg x y) s = .next t ∧ (∀ r, t.reg r = s.reg r) ∧ t.FaultsLateOutside ∧
      t.pc.toNat = if s.reg x = s.reg y then (s.pc.toNat + 2) % 65536 else s.pc.toNat) ∧
    (∃ t, exec (.sneReg x y) s = .next t ∧ (∀ r, t.reg r = s.reg r) ∧ t.FaultsLateOutside ∧
      t.pc.toNat = if s.reg x ≠ s.reg y then (s.pc.toNat + 2) % 65536 else s.pc.toNat)

/-- 2nnn with room pushes the advanced pc and jumps; with 16 entries it faults (R87). -/
def Obligations.CallPushesAndJumps : Prop :=
  ∀ (nnn : Addr12) (s : State),
    (encode (.call nnn)).toNat = 0x2000 + nnn.toNat ∧
    (s.sp.toNat < 16 → ∃ t, exec (.call nnn) s = .next t ∧ t.pc.toNat = nnn.toNat ∧
      t.sp.toNat = s.sp.toNat + 1 ∧ (∀ j : Fin 16, t.slot j = if j.val = s.sp.toNat then s.pc else s.slot j) ∧
      ∀ r, t.reg r = s.reg r) ∧
    (s.sp.toNat ≥ 16 → exec (.call nnn) s = .fault .stackOverflow)

/-- 00EE with 1 to 16 entries pops into pc and leaves the slot as it was; with none it faults (R85). -/
def Obligations.RetPopsIntoPc : Prop :=
  ∀ s : State,
    encode .ret = 0x00EE ∧
    (∀ j : Fin 16, s.sp.toNat = j.val + 1 → ∃ t, exec .ret s = .next t ∧ t.pc = s.slot j ∧
      t.sp.toNat = s.sp.toNat - 1 ∧ (∀ k, t.slot k = s.slot k) ∧ (∀ r, t.reg r = s.reg r) ∧ t.FaultsLateOutside) ∧
    (s.sp = 0 → exec .ret s = .fault .stackUnderflow)

/-- A call followed at once by a return comes back to the instruction after the call with the old depth (95_test_vectors.md
L1-4). -/
def Obligations.RetUndoesCall : Prop :=
  ∀ (nnn : Addr12) (s t t' : State), exec (.call nnn) s = .next t → t'.sp = t.sp → t'.stack = t.stack →
    ∃ u, exec .ret t' = .next u ∧ u.pc = s.pc ∧ u.sp = s.sp

/-- Bnnn: nnn plus V0, not reduced modulo 4096 (R92). -/
def Obligations.JpV0AddsTheOffset : Prop :=
  ∀ (nnn : Addr12) (s : State),
    (encode (.jpV0 nnn)).toNat = 0xB000 + nnn.toNat ∧
    ∃ t, exec (.jpV0 nnn) s = .next t ∧ t.pc.toNat = nnn.toNat + (s.reg Reg.V0).toNat ∧
      t.pc.toNat ≤ 0x10FE ∧ (∀ r, t.reg r = s.reg r) ∧ t.FaultsLateOutside

/-! ## Address register and memory (44_index_memory.md) -/

/-- Annn and Fx29: I takes nnn, or five times V[x] unmasked; no flag and no fault (R109, R111). -/
def Obligations.LdIAndLdFSetTheAddress : Prop :=
  ∀ (x : Reg) (nnn : Addr12) (s : State),
    (encode (.ldI nnn)).toNat = 0xA000 + nnn.toNat ∧ (encode (.ldF x)).toNat = 0xF029 + 0x100 * x.val ∧
    (∃ t, exec (.ldI nnn) s = .next t ∧ t.i.toNat = nnn.toNat ∧ ∀ r, t.reg r = s.reg r) ∧
    (∃ t, exec (.ldF x) s = .next t ∧ t.i.toNat = (s.reg x).toNat * 5 ∧ ∀ r, t.reg r = s.reg r)

/-- Fx1E: 16 bits, wrapping, no fault and no flag (R110; the wrap is decision D8, VF unchanged D28). -/
def Obligations.AddIWrapsAtSixteenBits : Prop :=
  ∀ (x : Reg) (s : State),
    (encode (.addI x)).toNat = 0xF01E + 0x100 * x.val ∧
    ∃ t, exec (.addI x) s = .next t ∧ t.i.toNat = (s.i.toNat + (s.reg x).toNat) % 65536 ∧ ∀ r, t.reg r = s.reg r

/-- Fx33: the three digits, a byte each, or a fault with no state (R112). -/
def Obligations.LdBStoresDecimalDigits : Prop :=
  ∀ (x : Reg) (s : State),
    (encode (.ldB x)).toNat = 0xF033 + 0x100 * x.val ∧
    (s.i.toNat + 2 < 4096 → ∃ t, exec (.ldB x) s = .next t ∧
      (t.mem.get s.i.toNat).toNat = (s.reg x).toNat / 100 ∧
      (t.mem.get (s.i.toNat + 1)).toNat = (s.reg x).toNat / 10 % 10 ∧
      (t.mem.get (s.i.toNat + 2)).toNat = (s.reg x).toNat % 10 ∧
      100 * (t.mem.get s.i.toNat).toNat + 10 * (t.mem.get (s.i.toNat + 1)).toNat +
        (t.mem.get (s.i.toNat + 2)).toNat = (s.reg x).toNat ∧
      t.i = s.i ∧ ∀ r, t.reg r = s.reg r) ∧
    (s.i.toNat + 2 ≥ 4096 → exec (.ldB x) s = .fault .memoryOutOfRange)

/-- Fx55: V0 to V[x] at I on, x included, I unchanged; or a fault with no state (R113; I unchanged is decision D7). -/
def Obligations.StoreRegsWritesTheBlock : Prop :=
  ∀ (x : Reg) (s : State),
    (encode (.storeRegs x)).toNat = 0xF055 + 0x100 * x.val ∧
    (s.i.toNat + x.val < 4096 → ∃ t, exec (.storeRegs x) s = .next t ∧
      (∀ r : Reg, r ≤ x → t.mem.get (s.i.toNat + r.val) = s.reg r) ∧ t.i = s.i ∧ ∀ r, t.reg r = s.reg r) ∧
    (s.i.toNat + x.val ≥ 4096 → exec (.storeRegs x) s = .fault .memoryOutOfRange)

/-- Fx65: V0 to V[x] from I on, x included, VF as data, I unchanged; or a fault with no state (R114; I unchanged is
decision D7). -/
def Obligations.LoadRegsReadsTheBlock : Prop :=
  ∀ (x : Reg) (s : State),
    (encode (.loadRegs x)).toNat = 0xF065 + 0x100 * x.val ∧
    (s.i.toNat + x.val < 4096 → ∃ t, exec (.loadRegs x) s = .next t ∧
      (∀ r : Reg, t.reg r = if r ≤ x then s.mem.get (s.i.toNat + r.val) else s.reg r) ∧ t.i = s.i) ∧
    (s.i.toNat + x.val ≥ 4096 → exec (.loadRegs x) s = .fault .memoryOutOfRange)

/-! ## Timer (45_timer.md) -/

/-- Fx07 reads the timer as it is before the tick; Fx15 writes it (R116, R117). -/
def Obligations.TimerReadAndWrite : Prop :=
  ∀ (x : Reg) (s : State),
    (encode (.ldVxDt x)).toNat = 0xF007 + 0x100 * x.val ∧ (encode (.ldDtVx x)).toNat = 0xF015 + 0x100 * x.val ∧
    (∃ t, exec (.ldVxDt x) s = .next t ∧ t.reg x = s.timer ∧ t.timer = s.timer ∧ ∀ r, r ≠ x → t.reg r = s.reg r) ∧
    (∃ t, exec (.ldDtVx x) s = .next t ∧ t.timer = s.reg x ∧ ∀ r, t.reg r = s.reg r)

/-! ## Display (41_display.md) -/

/-- 00E0: every pixel off; VF, memory, registers and I untouched (R79). -/
def Obligations.ClsClearsEveryPixel : Prop :=
  ∀ s : State,
    encode .cls = 0x00E0 ∧
    ∃ t, exec .cls s = .next t ∧ (∀ x y, t.pixelAt x y = false) ∧ (∀ r, t.reg r = s.reg r) ∧ t.i = s.i ∧
      ∀ a, t.mem.get a = s.mem.get a

/-- Dxyn: each set bit of the n sprite rows at I toggles its pixel, wrapped modulo 64 and 32 (decision D5), from the start
position V[x] mod 64, V[y] mod 32, a VF coordinate reading as 0 in the mode `sequential` (decision D6, log entry 1); VF
is 1 exactly on a set-to-clear pixel. It faults, with no state, when a sprite byte is out of range; with n = 0 it only
clears VF (R80 to R83; D18). -/
def Obligations.DrwTogglesTheWrappedSprite : Prop :=
  ∀ (x y : Reg) (n : Fin 16) (s : State),
    let start (r : Reg) : Nat := if r = Reg.VF ∧ aliasMode = .sequential then 0 else (s.reg r).toNat
    let covered (px : Fin 64) (py : Fin 32) : Prop :=
      ∃ row col, row < n.val ∧ col < 8 ∧ (s.mem.get (s.i.toNat + row)).getLsbD (7 - col) = true ∧
        px.val = (start x % 64 + col) % 64 ∧ py.val = (start y % 32 + row) % 32
    (encode (.drw x y n)).toNat = 0xD000 + 0x100 * x.val + 0x10 * y.val + n.val ∧
    (n.val = 0 ∨ s.i.toNat + n.val ≤ 4096 → ∃ t, exec (.drw x y n) s = .next t ∧
      (∀ px py, covered px py → t.pixelAt px py = !s.pixelAt px py) ∧
      (∀ px py, ¬ covered px py → t.pixelAt px py = s.pixelAt px py) ∧
      ((∃ px py, s.pixelAt px py = true ∧ t.pixelAt px py = false) → t.reg Reg.VF = 1) ∧
      ((¬ ∃ px py, s.pixelAt px py = true ∧ t.pixelAt px py = false) → t.reg Reg.VF = 0)) ∧
    (1 ≤ n.val → s.i.toNat + n.val - 1 ≥ 4096 → exec (.drw x y n) s = .fault .memoryOutOfRange)

/-- At the end of a successful Dxyn, VF is 1 if and only if a pixel that was 1 is 0 after it, and otherwise VF is 0
(R81). -/
def Obligations.DrwReportsCollision : Prop :=
  ∀ (x y : Reg) (n : Fin 16) (s t : State), exec (.drw x y n) s = .next t →
    (t.reg Reg.VF = 1 ↔ ∃ px py, s.pixelAt px py = true ∧ t.pixelAt px py = false) ∧
    (t.reg Reg.VF = 0 ↔ ∀ px py, s.pixelAt px py = true → t.pixelAt px py = true)

/-- Drawing the same sprite twice in a row, with no coordinate in VF, restores every pixel, and the second draw's VF is 1
exactly when the first draw set a pixel (R84, the spec's own inference; 95_test_vectors.md L1-5). -/
def Obligations.DrwTwiceRestoresTheDisplay : Prop :=
  ∀ (x y : Reg) (n : Fin 16) (s t : State), x ≠ Reg.VF → y ≠ Reg.VF → exec (.drw x y n) s = .next t →
    ∃ u, exec (.drw x y n) t = .next u ∧ (∀ px py, u.pixelAt px py = s.pixelAt px py) ∧
      (u.reg Reg.VF = 1 ↔ ∃ px py, s.pixelAt px py = false ∧ t.pixelAt px py = true)
end

