-- ==== Sys2Proof/Laws/Decode.lean ====
section
/-! SUPPORT. The fields of a word and the words of the formats as numbers (spec 30_encoding.md R54, R55), and reading the
fields back from each format. -/

namespace Sys2Proof

/-! ## Fields as numbers -/

theorem fieldOp_val (w : Word) : (fieldOp w).val = w.toNat / 4096 % 16 := by
  simp [fieldOp, nibbleAt, Nat.shiftRight_eq_div_pow]

theorem fieldX_val (w : Word) : (fieldX w).val = w.toNat / 256 % 16 := by
  simp [fieldX, nibbleAt, Nat.shiftRight_eq_div_pow]

theorem fieldY_val (w : Word) : (fieldY w).val = w.toNat / 16 % 16 := by
  simp [fieldY, nibbleAt, Nat.shiftRight_eq_div_pow]

theorem fieldN_val (w : Word) : (fieldN w).val = w.toNat % 16 := by
  simp [fieldN, nibbleAt]

theorem fieldKk_toNat (w : Word) : (fieldKk w).toNat = w.toNat % 256 := by
  simp [fieldKk]

theorem fieldNnn_toNat (w : Word) : (fieldNnn w).toNat = w.toNat % 4096 := by
  simp [fieldNnn]

/-! ## Formats as numbers -/

theorem append_toNat {m k : Nat} (a : BitVec m) (b : BitVec k) : (a ++ b).toNat = 2 ^ k * a.toNat + b.toNat := by
  rw [BitVec.toNat_append, Nat.shiftLeft_eq, Nat.mul_comm]
  exact (Nat.two_pow_add_eq_or_of_lt b.isLt a.toNat).symm

theorem nibbleBits_toNat (n : Fin 16) : (nibbleBits n).toNat = n.val := rfl

theorem formatNNN_toNat (op : BitVec 4) (nnn : Addr12) : (formatNNN op nnn).toNat = 4096 * op.toNat + nnn.toNat :=
  append_toNat op nnn

theorem formatXKK_toNat (op : BitVec 4) (x : Reg) (kk : Byte) :
    (formatXKK op x kk).toNat = 4096 * op.toNat + 256 * x.val + kk.toNat := by
  have : (formatXKK op x kk).toNat = 2 ^ 8 * (op ++ nibbleBits x).toNat + kk.toNat := append_toNat _ _
  rw [this, append_toNat, nibbleBits_toNat]
  omega

theorem formatXYN_toNat (op : BitVec 4) (x y : Reg) (n : Fin 16) :
    (formatXYN op x y n).toNat = 4096 * op.toNat + 256 * x.val + 16 * y.val + n.val := by
  have : (formatXYN op x y n).toNat =
      2 ^ 4 * (op ++ nibbleBits x ++ nibbleBits y).toNat + (nibbleBits n).toNat := append_toNat _ _
  rw [this, append_toNat, append_toNat, nibbleBits_toNat, nibbleBits_toNat, nibbleBits_toNat]
  omega

theorem formatXS_toNat (x : Reg) (s : Byte) : (formatXS x s).toNat = 61440 + 256 * x.val + s.toNat :=
  formatXKK_toNat 0xF x s

theorem wordOfBytes_toNat (b0 b1 : Byte) : (wordOfBytes b0 b1).toNat = 256 * b0.toNat + b1.toNat :=
  append_toNat b0 b1

theorem highByte_toNat (w : Word) : (highByte w).toNat = w.toNat / 256 := by
  have := w.isLt
  simp [highByte, Nat.shiftRight_eq_div_pow]
  omega

theorem lowByte_toNat (w : Word) : (lowByte w).toNat = w.toNat % 256 := by
  simp [lowByte]

@[simp] theorem wordOfBytes_high_low (w : Word) : wordOfBytes (highByte w) (lowByte w) = w := by
  apply BitVec.eq_of_toNat_eq
  rw [wordOfBytes_toNat, highByte_toNat, lowByte_toNat]
  omega

/-! ## Fields of a format -/

@[simp] theorem fieldOp_formatNNN (op : BitVec 4) (nnn : Addr12) : (fieldOp (formatNNN op nnn)).val = op.toNat := by
  have := nnn.isLt
  have := op.isLt
  rw [fieldOp_val, formatNNN_toNat]
  omega

@[simp] theorem fieldNnn_formatNNN (op : BitVec 4) (nnn : Addr12) : fieldNnn (formatNNN op nnn) = nnn := by
  have := nnn.isLt
  apply BitVec.eq_of_toNat_eq
  rw [fieldNnn_toNat, formatNNN_toNat]
  omega

@[simp] theorem fieldOp_formatXKK (op : BitVec 4) (x : Reg) (kk : Byte) :
    (fieldOp (formatXKK op x kk)).val = op.toNat := by
  have := op.isLt
  have := kk.isLt
  rw [fieldOp_val, formatXKK_toNat]
  omega

@[simp] theorem fieldX_formatXKK (op : BitVec 4) (x : Reg) (kk : Byte) : fieldX (formatXKK op x kk) = x := by
  have := kk.isLt
  apply Fin.ext
  rw [fieldX_val, formatXKK_toNat]
  omega

@[simp] theorem fieldKk_formatXKK (op : BitVec 4) (x : Reg) (kk : Byte) : fieldKk (formatXKK op x kk) = kk := by
  have := kk.isLt
  apply BitVec.eq_of_toNat_eq
  rw [fieldKk_toNat, formatXKK_toNat]
  omega

@[simp] theorem fieldOp_formatXYN (op : BitVec 4) (x y : Reg) (n : Fin 16) :
    (fieldOp (formatXYN op x y n)).val = op.toNat := by
  have := op.isLt
  rw [fieldOp_val, formatXYN_toNat]
  omega

@[simp] theorem fieldX_formatXYN (op : BitVec 4) (x y : Reg) (n : Fin 16) : fieldX (formatXYN op x y n) = x := by
  apply Fin.ext
  rw [fieldX_val, formatXYN_toNat]
  omega

@[simp] theorem fieldY_formatXYN (op : BitVec 4) (x y : Reg) (n : Fin 16) : fieldY (formatXYN op x y n) = y := by
  apply Fin.ext
  rw [fieldY_val, formatXYN_toNat]
  omega

@[simp] theorem fieldN_formatXYN (op : BitVec 4) (x y : Reg) (n : Fin 16) : fieldN (formatXYN op x y n) = n := by
  apply Fin.ext
  rw [fieldN_val, formatXYN_toNat]
  omega

theorem formatXS_eq (x : Reg) (s : Byte) : formatXS x s = formatXKK 0xF x s := rfl

/-! ## A word from its fields -/

theorem formatNNN_fields {w : Word} {op : BitVec 4} (h : (fieldOp w).val = op.toNat) :
    formatNNN op (fieldNnn w) = w := by
  have := w.isLt
  apply BitVec.eq_of_toNat_eq
  rw [formatNNN_toNat, fieldNnn_toNat, ← h, fieldOp_val]
  omega

theorem formatXKK_fields {w : Word} {op : BitVec 4} (h : (fieldOp w).val = op.toNat) :
    formatXKK op (fieldX w) (fieldKk w) = w := by
  have := w.isLt
  apply BitVec.eq_of_toNat_eq
  rw [formatXKK_toNat, fieldKk_toNat, fieldX_val, ← h, fieldOp_val]
  omega

theorem formatXYN_fields {w : Word} {op : BitVec 4} (h : (fieldOp w).val = op.toNat) :
    formatXYN op (fieldX w) (fieldY w) (fieldN w) = w := by
  have := w.isLt
  apply BitVec.eq_of_toNat_eq
  rw [formatXYN_toNat, fieldN_val, fieldY_val, fieldX_val, ← h, fieldOp_val]
  omega

/-! ## Formats bit by bit, and the masks of the opcode map (R64) -/

theorem getLsbD_formatNNN (op : BitVec 4) (nnn : Addr12) (i : Nat) :
    (formatNNN op nnn).getLsbD i = if i < 12 then nnn.getLsbD i else op.getLsbD (i - 12) :=
  BitVec.getLsbD_append

theorem getLsbD_formatXKK (op : BitVec 4) (x : Reg) (kk : Byte) (i : Nat) :
    (formatXKK op x kk).getLsbD i = if i < 8 then kk.getLsbD i else
      if i - 8 < 4 then (nibbleBits x).getLsbD (i - 8) else op.getLsbD (i - 8 - 4) :=
  (BitVec.getLsbD_append (x := op ++ nibbleBits x)).trans (by rw [BitVec.getLsbD_append])

theorem getLsbD_formatXYN (op : BitVec 4) (x y : Reg) (n : Fin 16) (i : Nat) :
    (formatXYN op x y n).getLsbD i = if i < 4 then (nibbleBits n).getLsbD i else
      if i - 4 < 4 then (nibbleBits y).getLsbD (i - 4) else
      if i - 4 - 4 < 4 then (nibbleBits x).getLsbD (i - 4 - 4) else op.getLsbD (i - 4 - 4 - 4) :=
  (BitVec.getLsbD_append (x := op ++ nibbleBits x ++ nibbleBits y)).trans
    (by rw [BitVec.getLsbD_append, BitVec.getLsbD_append])

theorem nibbleBits_nibbleAt (w : Word) (lo : Nat) : nibbleBits (nibbleAt w lo) = w.extractLsb' lo 4 := rfl
theorem nibbleBits_zero : nibbleBits 0 = 0#4 := rfl

theorem mask_op (w : Word) : w &&& 0xF000 = formatNNN (nibbleBits (fieldOp w)) 0 := by
  apply BitVec.eq_of_getLsbD_eq
  intro i hi
  rw [getLsbD_formatNNN, fieldOp, nibbleBits_nibbleAt]
  interval_cases i <;> simp

theorem mask_op_n (w : Word) : w &&& 0xF00F = formatXYN (nibbleBits (fieldOp w)) 0 0 (fieldN w) := by
  apply BitVec.eq_of_getLsbD_eq
  intro i hi
  rw [getLsbD_formatXYN, fieldOp, fieldN, nibbleBits_nibbleAt, nibbleBits_nibbleAt, nibbleBits_zero]
  interval_cases i <;> simp

theorem mask_op_kk (w : Word) : w &&& 0xF0FF = formatXKK (nibbleBits (fieldOp w)) 0 (fieldKk w) := by
  apply BitVec.eq_of_getLsbD_eq
  intro i hi
  rw [getLsbD_formatXKK, fieldOp, fieldKk, nibbleBits_nibbleAt, nibbleBits_zero]
  interval_cases i <;> simp

theorem mask_all (w : Word) : w &&& 0xFFFF = w := by
  simpa using BitVec.and_allOnes (x := w)

theorem mask_formatNNN (op : BitVec 4) (nnn : Addr12) : formatNNN op nnn &&& 0xF000 = formatNNN op 0 := by
  rw [mask_op, show nibbleBits (fieldOp (formatNNN op nnn)) = op from BitVec.eq_of_toNat_eq (fieldOp_formatNNN op nnn)]

theorem mask_formatXKK (op : BitVec 4) (x : Reg) (kk : Byte) : formatXKK op x kk &&& 0xF000 = formatNNN op 0 := by
  rw [mask_op, show nibbleBits (fieldOp (formatXKK op x kk)) = op from BitVec.eq_of_toNat_eq (fieldOp_formatXKK op x kk)]

theorem mask_formatXYS (op : BitVec 4) (x y : Reg) (n : Fin 16) :
    formatXYN op x y n &&& 0xF00F = formatXYN op 0 0 n := by
  rw [mask_op_n, fieldN_formatXYN,
    show nibbleBits (fieldOp (formatXYN op x y n)) = op from BitVec.eq_of_toNat_eq (fieldOp_formatXYN op x y n)]

theorem mask_formatXYN (op : BitVec 4) (x y : Reg) (n : Fin 16) : formatXYN op x y n &&& 0xF000 = formatNNN op 0 := by
  rw [mask_op,
    show nibbleBits (fieldOp (formatXYN op x y n)) = op from BitVec.eq_of_toNat_eq (fieldOp_formatXYN op x y n)]

theorem mask_formatXS (x : Reg) (s : Byte) : formatXS x s &&& 0xF0FF = formatXKK 0xF 0 s := by
  rw [formatXS_eq, mask_op_kk, fieldKk_formatXKK,
    show nibbleBits (fieldOp (formatXKK 0xF x s)) = 0xF from BitVec.eq_of_toNat_eq (fieldOp_formatXKK 0xF x s)]

end Sys2Proof
end

