-- ==== Sys2Proof/Laws/Memory.lean ====
section
/-! SUPPORT. What the memory operations do: reading after a write, and that every operation keeps the canonical form. -/

namespace Sys2Proof.Machine

@[simp] theorem Memory.get_nil (a : Nat) : Memory.get [] a = unlisted a := rfl

theorem Memory.get_forget (m : Memory) (a c : Nat) :
    (m.forget a).get c = if c = a then unlisted c else m.get c := by
  induction m with
  | nil => simp [Memory.forget]
  | cons p m ih =>
    obtain ⟨k, b⟩ := p
    simp only [Memory.forget, Memory.get]
    by_cases hak : a = k
    · subst hak
      by_cases hc : c = a <;> simp_all
    · by_cases hck : c = k
      · subst hck
        simp [hak, Ne.symm hak, Memory.get]
      · simp [hak, hck, Memory.get, ih]

theorem Memory.get_insert {m : Memory} {a : Nat} (b : Byte) (c : Nat) (h : ∀ p ∈ m, p.1 ≠ a) :
    (m.insert a b).get c = if c = a then b else m.get c := by
  induction m with
  | nil => simp [Memory.insert, Memory.get]
  | cons p m ih =>
    obtain ⟨k, d⟩ := p
    have hk : k ≠ a := h (k, d) (by simp)
    have ih := ih fun q hq => h q (by simp [hq])
    simp only [Memory.insert]
    split
    · simp [Memory.get]
    · by_cases hck : c = k
      · subst hck; simp [Memory.get, hk]
      · simp [Memory.get, hck, ih]

theorem Memory.forget_absent (m : Memory) (a : Nat) : ∀ p ∈ m.forget a, p.1 ≠ a := by
  induction m with
  | nil => simp [Memory.forget]
  | cons p m ih =>
    obtain ⟨k, b⟩ := p
    simp only [Memory.forget]
    split
    · exact ih
    · rename_i hak
      intro q hq
      rcases List.mem_cons.mp hq with rfl | hq
      · exact fun h => hak h.symm
      · exact ih q hq

/-- Reading after a write: the written byte at the written address, the old byte elsewhere (20_memory.md R45, R47). -/
theorem Memory.get_set (m : Memory) (a : Nat) (b : Byte) (c : Nat) :
    (m.set a b).get c = if c = a then b else m.get c := by
  unfold Memory.set
  split
  · rename_i hb
    rw [Memory.get_forget]
    split <;> simp_all
  · rw [Memory.get_insert b c (Memory.forget_absent m a), Memory.get_forget]
    split <;> simp_all

@[simp] theorem Memory.get_set_same (m : Memory) (a : Nat) (b : Byte) : (m.set a b).get a = b := by
  simp [Memory.get_set]

theorem Memory.get_set_other (m : Memory) {a c : Nat} (b : Byte) (h : c ≠ a) : (m.set a b).get c = m.get c := by
  simp [Memory.get_set, h]

/-- Reading after a block write. -/
theorem Memory.get_setBytes (m : Memory) (base : Nat) (bs : List Byte) (c : Nat) :
    (m.setBytes base bs).get c = if base ≤ c then (bs[c - base]?).getD (m.get c) else m.get c := by
  induction bs generalizing m base with
  | nil => simp [Memory.setBytes]
  | cons b bs ih =>
    simp only [Memory.setBytes, ih, Memory.get_set]
    rcases Nat.lt_trichotomy c base with h | h | h
    · simp [Nat.not_le.mpr h, Nat.not_le.mpr (Nat.lt_succ_of_lt h), Nat.ne_of_lt h]
    · subst h; simp
    · have h1 : base + 1 ≤ c := h
      have h2 : c - base = (c - (base + 1)) + 1 := by omega
      simp [h1, Nat.le_of_lt h, Nat.ne_of_gt h, h2]

theorem Memory.get_setBytes_outside (m : Memory) {base c : Nat} {bs : List Byte}
    (h : ¬(base ≤ c ∧ c < base + bs.length)) : (m.setBytes base bs).get c = m.get c := by
  rw [Memory.get_setBytes]
  split
  · rw [List.getElem?_eq_none (by omega)]; rfl
  · rfl

theorem Memory.get_setBytes_inside (m : Memory) {base k : Nat} {bs : List Byte} (h : k < bs.length) :
    (m.setBytes base bs).get (base + k) = bs[k] := by
  simp [Memory.get_setBytes, h]

/-! ## The canonical form -/

theorem Memory.wfFrom_cons {k lo : Nat} {c : Byte} {m : Memory} :
    Memory.wfFrom ((k, c) :: m) lo = true ↔
      lo ≤ k ∧ k < Config.memSize ∧ c ≠ unlisted k ∧ m.wfFrom (k + 1) = true := by
  simp [Memory.wfFrom, and_assoc]

theorem Memory.wfFrom_mono {m : Memory} {lo hi : Nat} (h : lo ≤ hi) (hm : m.wfFrom hi = true) :
    m.wfFrom lo = true := by
  cases m with
  | nil => rfl
  | cons p m =>
    obtain ⟨k, c⟩ := p
    rw [Memory.wfFrom_cons] at hm ⊢
    exact ⟨h.trans hm.1, hm.2⟩

theorem Memory.forget_wfFrom {m : Memory} {lo : Nat} (a : Nat) (hm : m.wfFrom lo = true) :
    (m.forget a).wfFrom lo = true := by
  induction m generalizing lo with
  | nil => rfl
  | cons p m ih =>
    obtain ⟨k, c⟩ := p
    obtain ⟨h1, h2, h3, h4⟩ := Memory.wfFrom_cons.mp hm
    simp only [Memory.forget]
    split
    · exact Memory.wfFrom_mono (by omega) (ih h4)
    · exact Memory.wfFrom_cons.mpr ⟨h1, h2, h3, ih h4⟩

theorem Memory.insert_wfFrom {m : Memory} {lo a : Nat} {b : Byte} (hlo : lo ≤ a) (ha : a < Config.memSize)
    (hb : b ≠ unlisted a) (habs : ∀ p ∈ m, p.1 ≠ a) (hm : m.wfFrom lo = true) :
    (m.insert a b).wfFrom lo = true := by
  induction m generalizing lo with
  | nil => exact Memory.wfFrom_cons.mpr ⟨hlo, ha, hb, rfl⟩
  | cons p m ih =>
    obtain ⟨k, c⟩ := p
    obtain ⟨h1, h2, h3, h4⟩ := Memory.wfFrom_cons.mp hm
    have hk : k ≠ a := habs (k, c) (by simp)
    simp only [Memory.insert]
    split
    · exact Memory.wfFrom_cons.mpr ⟨hlo, ha, hb, Memory.wfFrom_cons.mpr ⟨by omega, h2, h3, h4⟩⟩
    · exact Memory.wfFrom_cons.mpr
        ⟨h1, h2, h3, ih (by omega) (fun q hq => habs q (by simp [hq])) h4⟩

/-- A write below MEM_SIZE keeps the canonical form. -/
theorem Memory.set_wf {m : Memory} {a : Nat} (b : Byte) (ha : a < Config.memSize) (hm : m.wf = true) :
    (m.set a b).wf = true := by
  unfold Memory.set
  split
  · exact Memory.forget_wfFrom a hm
  · rename_i hb
    exact Memory.insert_wfFrom (Nat.zero_le a) ha hb (Memory.forget_absent m a) (Memory.forget_wfFrom a hm)

/-- A block write within MEM_SIZE keeps the canonical form. -/
theorem Memory.setBytes_wf {m : Memory} {base : Nat} {bs : List Byte} (h : base + bs.length ≤ Config.memSize)
    (hm : m.wf = true) : (m.setBytes base bs).wf = true := by
  induction bs generalizing m base with
  | nil => exact hm
  | cons b bs ih =>
    simp only [List.length_cons] at h
    exact ih (by omega) (Memory.set_wf b (by omega) hm)

/-- An address below every entry reads as unlisted. -/
theorem Memory.get_below {m : Memory} {lo a : Nat} (ha : a < lo) (hm : m.wfFrom lo = true) : m.get a = unlisted a := by
  induction m generalizing lo with
  | nil => rfl
  | cons p m ih =>
    obtain ⟨k, c⟩ := p
    obtain ⟨h1, -, -, h4⟩ := Memory.wfFrom_cons.mp hm
    have : a ≠ k := by omega
    simpa [Memory.get, this] using ih (by omega) h4

theorem reset_memory_wf : State.reset.mem.wf = true := rfl

end Sys2Proof.Machine
end

