-- ==== Sys2Proof/Laws/State.lean ====
section
/-! SUPPORT. One lemma per field per update of State, true by rfl, and the reads of a register, a stack slot and a pixel
after each update, so that no later proof unfolds a record update. -/

namespace Sys2Proof.Machine

/-! ## Fields after an update -/

@[simp] theorem State.setReg_i (s : State) (r : Reg) (b : Byte) : (s.setReg r b).i = s.i := rfl
@[simp] theorem State.setReg_pc (s : State) (r : Reg) (b : Byte) : (s.setReg r b).pc = s.pc := rfl
@[simp] theorem State.setReg_sp (s : State) (r : Reg) (b : Byte) : (s.setReg r b).sp = s.sp := rfl
@[simp] theorem State.setReg_stack (s : State) (r : Reg) (b : Byte) : (s.setReg r b).stack = s.stack := rfl
@[simp] theorem State.setReg_timer (s : State) (r : Reg) (b : Byte) : (s.setReg r b).timer = s.timer := rfl
@[simp] theorem State.setReg_disp (s : State) (r : Reg) (b : Byte) : (s.setReg r b).disp = s.disp := rfl
@[simp] theorem State.setReg_mem (s : State) (r : Reg) (b : Byte) : (s.setReg r b).mem = s.mem := rfl
@[simp] theorem State.setReg_draws (s : State) (r : Reg) (b : Byte) : (s.setReg r b).draws = s.draws := rfl

@[simp] theorem State.setI_v (s : State) (w : Word) : (s.setI w).v = s.v := rfl
@[simp] theorem State.setI_i (s : State) (w : Word) : (s.setI w).i = w := rfl
@[simp] theorem State.setI_pc (s : State) (w : Word) : (s.setI w).pc = s.pc := rfl
@[simp] theorem State.setI_sp (s : State) (w : Word) : (s.setI w).sp = s.sp := rfl
@[simp] theorem State.setI_stack (s : State) (w : Word) : (s.setI w).stack = s.stack := rfl
@[simp] theorem State.setI_timer (s : State) (w : Word) : (s.setI w).timer = s.timer := rfl
@[simp] theorem State.setI_disp (s : State) (w : Word) : (s.setI w).disp = s.disp := rfl
@[simp] theorem State.setI_mem (s : State) (w : Word) : (s.setI w).mem = s.mem := rfl
@[simp] theorem State.setI_draws (s : State) (w : Word) : (s.setI w).draws = s.draws := rfl

@[simp] theorem State.setPc_v (s : State) (w : Word) : (s.setPc w).v = s.v := rfl
@[simp] theorem State.setPc_i (s : State) (w : Word) : (s.setPc w).i = s.i := rfl
@[simp] theorem State.setPc_pc (s : State) (w : Word) : (s.setPc w).pc = w := rfl
@[simp] theorem State.setPc_sp (s : State) (w : Word) : (s.setPc w).sp = s.sp := rfl
@[simp] theorem State.setPc_stack (s : State) (w : Word) : (s.setPc w).stack = s.stack := rfl
@[simp] theorem State.setPc_timer (s : State) (w : Word) : (s.setPc w).timer = s.timer := rfl
@[simp] theorem State.setPc_disp (s : State) (w : Word) : (s.setPc w).disp = s.disp := rfl
@[simp] theorem State.setPc_mem (s : State) (w : Word) : (s.setPc w).mem = s.mem := rfl
@[simp] theorem State.setPc_draws (s : State) (w : Word) : (s.setPc w).draws = s.draws := rfl

@[simp] theorem State.setTimer_v (s : State) (b : Byte) : (s.setTimer b).v = s.v := rfl
@[simp] theorem State.setTimer_i (s : State) (b : Byte) : (s.setTimer b).i = s.i := rfl
@[simp] theorem State.setTimer_pc (s : State) (b : Byte) : (s.setTimer b).pc = s.pc := rfl
@[simp] theorem State.setTimer_sp (s : State) (b : Byte) : (s.setTimer b).sp = s.sp := rfl
@[simp] theorem State.setTimer_stack (s : State) (b : Byte) : (s.setTimer b).stack = s.stack := rfl
@[simp] theorem State.setTimer_timer (s : State) (b : Byte) : (s.setTimer b).timer = b := rfl
@[simp] theorem State.setTimer_disp (s : State) (b : Byte) : (s.setTimer b).disp = s.disp := rfl
@[simp] theorem State.setTimer_mem (s : State) (b : Byte) : (s.setTimer b).mem = s.mem := rfl
@[simp] theorem State.setTimer_draws (s : State) (b : Byte) : (s.setTimer b).draws = s.draws := rfl

@[simp] theorem State.nextDraw_v (s : State) : (s.nextDraw).v = s.v := rfl
@[simp] theorem State.nextDraw_i (s : State) : (s.nextDraw).i = s.i := rfl
@[simp] theorem State.nextDraw_pc (s : State) : (s.nextDraw).pc = s.pc := rfl
@[simp] theorem State.nextDraw_sp (s : State) : (s.nextDraw).sp = s.sp := rfl
@[simp] theorem State.nextDraw_stack (s : State) : (s.nextDraw).stack = s.stack := rfl
@[simp] theorem State.nextDraw_timer (s : State) : (s.nextDraw).timer = s.timer := rfl
@[simp] theorem State.nextDraw_disp (s : State) : (s.nextDraw).disp = s.disp := rfl
@[simp] theorem State.nextDraw_mem (s : State) : (s.nextDraw).mem = s.mem := rfl
@[simp] theorem State.nextDraw_draws (s : State) : (s.nextDraw).draws = s.draws + 1 := rfl

@[simp] theorem State.advancePc_v (s : State) : (s.advancePc).v = s.v := rfl
@[simp] theorem State.advancePc_i (s : State) : (s.advancePc).i = s.i := rfl
@[simp] theorem State.advancePc_pc (s : State) : (s.advancePc).pc = s.pc + 2 := rfl
@[simp] theorem State.advancePc_sp (s : State) : (s.advancePc).sp = s.sp := rfl
@[simp] theorem State.advancePc_stack (s : State) : (s.advancePc).stack = s.stack := rfl
@[simp] theorem State.advancePc_timer (s : State) : (s.advancePc).timer = s.timer := rfl
@[simp] theorem State.advancePc_disp (s : State) : (s.advancePc).disp = s.disp := rfl
@[simp] theorem State.advancePc_mem (s : State) : (s.advancePc).mem = s.mem := rfl
@[simp] theorem State.advancePc_draws (s : State) : (s.advancePc).draws = s.draws := rfl

@[simp] theorem State.setFlagThenReg_i (s : State) (f : Byte) (r : Reg) (b : Byte) : (s.setFlagThenReg f r b).i = s.i := rfl
@[simp] theorem State.setFlagThenReg_pc (s : State) (f : Byte) (r : Reg) (b : Byte) : (s.setFlagThenReg f r b).pc = s.pc := rfl
@[simp] theorem State.setFlagThenReg_sp (s : State) (f : Byte) (r : Reg) (b : Byte) : (s.setFlagThenReg f r b).sp = s.sp := rfl
@[simp] theorem State.setFlagThenReg_stack (s : State) (f : Byte) (r : Reg) (b : Byte) : (s.setFlagThenReg f r b).stack = s.stack := rfl
@[simp] theorem State.setFlagThenReg_timer (s : State) (f : Byte) (r : Reg) (b : Byte) : (s.setFlagThenReg f r b).timer = s.timer := rfl
@[simp] theorem State.setFlagThenReg_disp (s : State) (f : Byte) (r : Reg) (b : Byte) : (s.setFlagThenReg f r b).disp = s.disp := rfl
@[simp] theorem State.setFlagThenReg_mem (s : State) (f : Byte) (r : Reg) (b : Byte) : (s.setFlagThenReg f r b).mem = s.mem := rfl
@[simp] theorem State.setFlagThenReg_draws (s : State) (f : Byte) (r : Reg) (b : Byte) : (s.setFlagThenReg f r b).draws = s.draws := rfl

/-! ## Registers after an update -/

@[simp] theorem State.setI_reg (s : State) (w : Word) (r : Reg) : (s.setI w).reg r = s.reg r := rfl
@[simp] theorem State.setPc_reg (s : State) (w : Word) (r : Reg) : (s.setPc w).reg r = s.reg r := rfl
@[simp] theorem State.setTimer_reg (s : State) (b : Byte) (r : Reg) : (s.setTimer b).reg r = s.reg r := rfl
@[simp] theorem State.nextDraw_reg (s : State) (r : Reg) : (s.nextDraw).reg r = s.reg r := rfl
@[simp] theorem State.advancePc_reg (s : State) (r : Reg) : (s.advancePc).reg r = s.reg r := rfl

/-- Reading a register after a register write. -/
theorem State.setReg_reg (s : State) (x r : Reg) (b : Byte) :
    (s.setReg x b).reg r = if r = x then b else s.reg r := by
  simp only [State.reg, State.setReg, Vector.getElem_set, Fin.ext_iff, eq_comm]

@[simp] theorem State.setReg_reg_same (s : State) (x : Reg) (b : Byte) : (s.setReg x b).reg x = b := by
  simp [State.setReg_reg]

@[simp] theorem State.setReg_reg_other (s : State) {x r : Reg} (b : Byte) (h : r ≠ x) :
    (s.setReg x b).reg r = s.reg r := by
  simp [State.setReg_reg, h]

/-- Reading a register after the flag write and the data write. -/
theorem State.setFlagThenReg_reg (s : State) (f b : Byte) (x r : Reg) :
    (s.setFlagThenReg f x b).reg r = if r = x then b else if r = Reg.VF then f else s.reg r := by
  simp [State.setFlagThenReg, State.setReg_reg]

@[simp] theorem State.setFlagThenReg_reg_same (s : State) (f b : Byte) (x : Reg) :
    (s.setFlagThenReg f x b).reg x = b := by
  simp [State.setFlagThenReg_reg]

@[simp] theorem State.setFlagThenReg_flag (s : State) (f b : Byte) {x : Reg} (h : x ≠ Reg.VF) :
    (s.setFlagThenReg f x b).reg Reg.VF = f := by
  simp [State.setFlagThenReg_reg, h.symm]

/-! ## Stack slots and pixels depend on their own field only -/

theorem State.slot_congr {s t : State} (h : t.stack = s.stack) (j : Fin 16) : t.slot j = s.slot j := by
  simp [State.slot, h]

theorem State.pixelAt_congr {s t : State} (h : t.disp = s.disp) (x : Fin 64) (y : Fin 32) :
    t.pixelAt x y = s.pixelAt x y := by
  simp [State.pixelAt, h]

theorem State.reg_congr {s t : State} (h : t.v = s.v) (r : Reg) : t.reg r = s.reg r := by
  simp [State.reg, h]

@[simp] theorem State.setReg_slot (s : State) (r : Reg) (b : Byte) (j : Fin 16) : (s.setReg r b).slot j = s.slot j := rfl
@[simp] theorem State.setReg_pixelAt (s : State) (r : Reg) (b : Byte) (x : Fin 64) (y : Fin 32) :
    (s.setReg r b).pixelAt x y = s.pixelAt x y := rfl
@[simp] theorem State.setI_slot (s : State) (w : Word) (j : Fin 16) : (s.setI w).slot j = s.slot j := rfl
@[simp] theorem State.setI_pixelAt (s : State) (w : Word) (x : Fin 64) (y : Fin 32) :
    (s.setI w).pixelAt x y = s.pixelAt x y := rfl
@[simp] theorem State.setPc_slot (s : State) (w : Word) (j : Fin 16) : (s.setPc w).slot j = s.slot j := rfl
@[simp] theorem State.setPc_pixelAt (s : State) (w : Word) (x : Fin 64) (y : Fin 32) :
    (s.setPc w).pixelAt x y = s.pixelAt x y := rfl
@[simp] theorem State.setTimer_slot (s : State) (b : Byte) (j : Fin 16) : (s.setTimer b).slot j = s.slot j := rfl
@[simp] theorem State.setTimer_pixelAt (s : State) (b : Byte) (x : Fin 64) (y : Fin 32) :
    (s.setTimer b).pixelAt x y = s.pixelAt x y := rfl
@[simp] theorem State.nextDraw_slot (s : State) (j : Fin 16) : (s.nextDraw).slot j = s.slot j := rfl
@[simp] theorem State.nextDraw_pixelAt (s : State)  (x : Fin 64) (y : Fin 32) :
    (s.nextDraw).pixelAt x y = s.pixelAt x y := rfl
@[simp] theorem State.advancePc_slot (s : State) (j : Fin 16) : (s.advancePc).slot j = s.slot j := rfl
@[simp] theorem State.advancePc_pixelAt (s : State)  (x : Fin 64) (y : Fin 32) :
    (s.advancePc).pixelAt x y = s.pixelAt x y := rfl
@[simp] theorem State.setFlagThenReg_slot (s : State) (f : Byte) (r : Reg) (b : Byte) (j : Fin 16) : (s.setFlagThenReg f r b).slot j = s.slot j := rfl
@[simp] theorem State.setFlagThenReg_pixelAt (s : State) (f : Byte) (r : Reg) (b : Byte) (x : Fin 64) (y : Fin 32) :
    (s.setFlagThenReg f r b).pixelAt x y = s.pixelAt x y := rfl

end Sys2Proof.Machine
end

