-- ==== Sys2Proof/Laws/Ops.lean ====
section
/-! SUPPORT. One lemma per shared operation of Machine/Ops.lean that says everything it can do; proofs cite these and do
not unfold the operation. -/

namespace Sys2Proof.Machine

/-! ## The call stack -/

theorem State.push_ok {s : State} (w : Word) (h : s.sp.toNat < 16) :
    s.push w = .ok { s with stack := s.stack.set s.sp.toNat w, sp := s.sp + 1 } := by
  simp [State.push, h]

theorem State.push_full {s : State} (w : Word) (h : 16 ≤ s.sp.toNat) : s.push w = .error .stackOverflow := by
  simp [State.push, Nat.not_lt.mpr h]

/-- A push that succeeds had room, wrote slot sp and counted one entry more; one that fails is StackOverflow. -/
theorem State.push_cases (s : State) (w : Word) :
    (∃ h : s.sp.toNat < 16, s.push w = .ok { s with stack := s.stack.set s.sp.toNat w, sp := s.sp + 1 }) ∨
    (16 ≤ s.sp.toNat ∧ s.push w = .error .stackOverflow) := by
  rcases Nat.lt_or_ge s.sp.toNat 16 with h | h
  · exact .inl ⟨h, State.push_ok w h⟩
  · exact .inr ⟨h, State.push_full w h⟩

theorem State.pop_empty {s : State} (h : s.sp = 0) : s.pop = .error .stackUnderflow := by
  simp [State.pop, h]

theorem State.pop_ok {s : State} (h0 : s.sp ≠ 0) (h : s.sp.toNat - 1 < 16) :
    s.pop = .ok (s.slot ⟨s.sp.toNat - 1, h⟩, { s with sp := s.sp - 1 }) := by
  unfold State.pop
  rw [if_neg h0, dif_pos h]
  rfl

/-- A pop that succeeds had 1 to 16 entries; one that fails had none, or sp above 16. -/
theorem State.pop_cases (s : State) :
    (s.sp = 0 ∧ s.pop = .error .stackUnderflow) ∨
    (∃ h : s.sp.toNat - 1 < 16, s.sp ≠ 0 ∧ s.pop = .ok (s.slot ⟨s.sp.toNat - 1, h⟩, { s with sp := s.sp - 1 })) ∨
    (16 < s.sp.toNat ∧ s.pop = .error .stackOverflow) := by
  by_cases h0 : s.sp = 0
  · exact .inl ⟨h0, State.pop_empty h0⟩
  · rcases Nat.lt_or_ge (s.sp.toNat - 1) 16 with h | h
    · exact .inr (.inl ⟨h, h0, State.pop_ok h0 h⟩)
    · exact .inr (.inr ⟨by omega, by unfold State.pop; rw [if_neg h0, dif_neg (Nat.not_lt.mpr h)]⟩)

/-! ## Memory accesses -/

theorem State.memRead_in {s : State} {a : Nat} (h : a < 4096) : s.memRead a = .ok (s.mem.get a) := by
  simp [State.memRead, Config.memSize, Nat.not_le.mpr h]

theorem State.memRead_out {s : State} {a : Nat} (h : 4096 ≤ a) : s.memRead a = .error .memoryOutOfRange := by
  simp [State.memRead, Config.memSize, h]

theorem State.memWrite_in {s : State} {a : Nat} (b : Byte) (h : a < 4096) :
    s.memWrite a b = .ok { s with mem := s.mem.set a b } := by
  simp [State.memWrite, Config.memSize, Nat.not_le.mpr h]

theorem State.memWrite_out {s : State} {a : Nat} (b : Byte) (h : 4096 ≤ a) :
    s.memWrite a b = .error .memoryOutOfRange := by
  simp [State.memWrite, Config.memSize, h]

/-- The bytes at a, a + 1, ..., a + n - 1. -/
def State.bytesAt (s : State) (a n : Nat) : List Byte := (List.range n).map fun k => s.mem.get (a + k)

@[simp] theorem State.bytesAt_length (s : State) (a n : Nat) : (s.bytesAt a n).length = n := by
  simp [State.bytesAt]

@[simp] theorem State.bytesAt_getElem (s : State) (a n k : Nat) (h : k < (s.bytesAt a n).length) :
    (s.bytesAt a n)[k] = s.mem.get (a + k) := by
  simp [State.bytesAt]

theorem State.bytesAt_succ (s : State) (a n : Nat) : s.bytesAt a (n + 1) = s.mem.get a :: s.bytesAt (a + 1) n := by
  simp [State.bytesAt, List.range_succ_eq_map, Function.comp_def, Nat.add_assoc, Nat.add_comm 1]

/-- A block read answers the bytes when every address is in range, and one fault otherwise. -/
theorem State.readBytes_eq (s : State) (a n : Nat) :
    s.readBytes a n = if n = 0 ∨ a + n ≤ 4096 then .ok (s.bytesAt a n) else .error .memoryOutOfRange := by
  induction n generalizing a with
  | zero => simp [State.readBytes, State.bytesAt]
  | succ n ih =>
    rcases Nat.lt_or_ge a 4096 with h | h
    · by_cases hn : n = 0 ∨ a + 1 + n ≤ 4096
      · have : a + (n + 1) ≤ 4096 := by omega
        simp [State.readBytes, State.memRead_in h, ih, hn, this, State.bytesAt_succ]
      · have : ¬ a + (n + 1) ≤ 4096 := by omega
        simp [State.readBytes, State.memRead_in h, ih, hn, this]
    · have : ¬ a + (n + 1) ≤ 4096 := by omega
      simp [State.readBytes, State.memRead_out h, this]

/-- A block write puts all bytes when every address is in range, and is one fault otherwise. -/
theorem State.writeBytes_eq (s : State) (a : Nat) (bs : List Byte) :
    s.writeBytes a bs = if bs = [] ∨ a + bs.length ≤ 4096 then .ok { s with mem := s.mem.setBytes a bs }
      else .error .memoryOutOfRange := by
  induction bs generalizing s a with
  | nil => simp [State.writeBytes, Memory.setBytes]
  | cons b bs ih =>
    rcases Nat.lt_or_ge a 4096 with h | h
    · by_cases hn : bs = [] ∨ a + 1 + bs.length ≤ 4096
      · have : a + (bs.length + 1) ≤ 4096 := by
          rcases hn with rfl | hn
          · simpa using h
          · omega
        simp [State.writeBytes, State.memWrite_in b h, ih, hn, this, Memory.setBytes]
      · have : ¬ a + (bs.length + 1) ≤ 4096 := by omega
        simp [State.writeBytes, State.memWrite_in b h, ih, hn, this]
    · have : ¬ a + (bs.length + 1) ≤ 4096 := by omega
      simp [State.writeBytes, State.memWrite_out b h, this]

/-- Fetch answers the big-endian word at pc, or faults when pc + 1 is out of range (40_step_cycle.md R68). -/
theorem State.fetch_eq (s : State) :
    s.fetch = if s.pc.toNat + 1 < 4096 then .ok (s.mem.get s.pc.toNat ++ s.mem.get (s.pc.toNat + 1))
      else .error .memoryOutOfRange := by
  unfold State.fetch
  rcases Nat.lt_or_ge (s.pc.toNat + 1) 4096 with h | h
  · simp [State.memRead_in h, State.memRead_in (show s.pc.toNat < 4096 by omega), h]
  · rcases Nat.lt_or_ge s.pc.toNat 4096 with h' | h'
    · simp [State.memRead_in h', State.memRead_out h, Nat.not_lt.mpr h]
    · simp [State.memRead_out h', Nat.not_lt.mpr h]

/-! ## Register blocks -/

theorem State.regsUpTo_length (s : State) (x : Reg) : (s.regsUpTo x).length = x.val + 1 := by
  simp [State.regsUpTo]

theorem State.regsUpTo_getElem (s : State) (x : Reg) (k : Nat) (h : k < (s.regsUpTo x).length) :
    (s.regsUpTo x)[k] = s.reg ⟨k, by rw [State.regsUpTo_length] at h; omega⟩ := by
  simp [State.regsUpTo, State.reg]

/-- A register block load changes V0 to VF only. -/
theorem State.loadRegsFrom_only_v (s : State) (r : Nat) (bs : List Byte) :
    s.loadRegsFrom r bs = { s with v := (s.loadRegsFrom r bs).v } := by
  induction bs generalizing s r with
  | nil => rfl
  | cons b bs ih => rw [State.loadRegsFrom, ih]; rfl

/-- A register block load gives each register of the block its byte and leaves the others. -/
theorem State.loadRegsFrom_reg {s : State} {r : Nat} {bs : List Byte} (h : r + bs.length ≤ 16) (q : Reg) :
    (s.loadRegsFrom r bs).reg q = if r ≤ q.val then (bs[q.val - r]?).getD (s.reg q) else s.reg q := by
  induction bs generalizing s r with
  | nil => simp [State.loadRegsFrom]
  | cons b bs ih =>
    simp only [List.length_cons] at h
    rw [State.loadRegsFrom, ih (by omega), State.setReg_reg]
    have hr : (Fin.ofNat 16 r).val = r := Nat.mod_eq_of_lt (by omega)
    rcases Nat.lt_trichotomy q.val r with hq | hq | hq
    · have hne : q ≠ Fin.ofNat 16 r := fun e => by rw [e, hr] at hq; omega
      rw [if_neg hne, if_neg (by omega), if_neg (by omega)]
    · have heq : q = Fin.ofNat 16 r := Fin.ext (by omega)
      have hlt : ¬ r + 1 ≤ q.val := by omega
      have hle : r ≤ q.val := by omega
      have h0 : q.val - r = 0 := by omega
      simp only [if_neg hlt, if_pos hle, if_pos heq, h0]
      simp
    · have hne : q ≠ Fin.ofNat 16 r := fun e => by rw [e, hr] at hq; omega
      have h2 : q.val - r = (q.val - (r + 1)) + 1 := by omega
      have hle : r + 1 ≤ q.val := hq
      rw [if_neg hne, if_pos hle, if_pos (by omega), h2]
      simp

/-! ## The end of a step -/

theorem commit_next {e : Except Fault State} {t : State} (h : commit e = .next t) : e = .ok t := by
  cases e with
  | ok u => simpa [commit] using h
  | error f => simp [commit] at h

@[simp] theorem State.tick_timer (s : State) : s.tick.timer = if s.timer = 0 then 0 else s.timer - 1 := by
  unfold State.tick
  by_cases h : s.timer = 0
  · rw [if_neg (not_not.mpr h), if_pos h, h]
  · rw [if_pos h, if_neg h]
    rfl

/-- The tick changes the timer only. -/
theorem State.tick_only_timer (s : State) : s.tick = { s with timer := s.tick.timer } := by
  unfold State.tick
  split <;> rfl

@[simp] theorem bcdDigits_length (b : Byte) : (bcdDigits b).length = 3 := rfl

/-- A step that ends well had an execution that ended well, and ticked. -/
theorem finishStep_next {r : Result} {t : State} (h : finishStep r = .next t) : ∃ u, r = .next u ∧ t = u.tick := by
  cases r with
  | next u => exact ⟨u, rfl, by simpa [finishStep] using h.symm⟩
  | fault f => simp [finishStep] at h
  | refused r => simp [finishStep] at h

theorem finishStep_fault {r : Result} {f : Fault} : finishStep r = .fault f ↔ r = .fault f := by
  cases r <;> simp [finishStep]

end Sys2Proof.Machine
end

