-- ==== Sys2Proof/Laws/Display.lean ====
section
/-! SUPPORT. The sprite rasteriser as one set of points: the set bits of the sprite at their wrapped places are pairwise
different (41_display.md R84), each toggles its pixel once, and a collision is a point that was set. -/

namespace Sys2Proof.Machine

/-- A pixel of a bare display. -/
def Display.at (d : Display) (x : Fin 64) (y : Fin 32) : Bool := d[y.val].getLsbD x.val

/-- The points of one sprite row: column col is bit 7 - col (R80). -/
def rowPoints (cx : Nat) (y : Fin 32) (bits : Byte) : List (Fin 64 × Fin 32) :=
  ((List.range 8).filter fun col => bits.getLsbD (7 - col)).map fun col => (Fin.ofNat 64 (cx + col), y)

/-- The points of the sprite rows from row `row` on. -/
def spritePoints (cx cy row : Nat) : List Byte → List (Fin 64 × Fin 32)
  | [] => []
  | b :: bs => rowPoints cx (Fin.ofNat 32 (cy + row)) b ++ spritePoints cx cy (row + 1) bs

/-- Toggling the points of a list one after another. -/
def togglePoints (d : Display × Bool) (ps : List (Fin 64 × Fin 32)) : Display × Bool :=
  ps.foldl (fun d p => togglePixel d p.1 p.2) d

theorem drawRow_eq (cx : Nat) (y : Fin 32) (bits : Byte) (d : Display × Bool) :
    drawRow cx y bits d = togglePoints d (rowPoints cx y bits) := by
  simp [drawRow, togglePoints, rowPoints, List.foldl_map, List.foldl_filter]

theorem drawRows_eq (cx cy row : Nat) (bs : List Byte) (d : Display × Bool) :
    drawRows cx cy row bs d = togglePoints d (spritePoints cx cy row bs) := by
  induction bs generalizing row d with
  | nil => rfl
  | cons b bs ih =>
    rw [drawRows, ih, drawRow_eq, spritePoints, togglePoints, togglePoints, togglePoints, List.foldl_append]

theorem togglePixel_at (d : Display × Bool) (x x' : Fin 64) (y y' : Fin 32) :
    (togglePixel d x y).1.at x' y' = (d.1.at x' y' ^^ decide (x' = x ∧ y' = y)) := by
  unfold togglePixel Display.at
  by_cases hy : y'.val = y.val
  · have hy' : y' = y := Fin.ext hy
    subst hy'
    simp [Fin.ext_iff, eq_comm]
  · have hne : y' ≠ y := fun h => hy (by rw [h])
    simp [Vector.getElem_set_ne, Ne.symm hy, hne]

/-- Toggling pairwise different points flips exactly those pixels; the collision says whether one of them was set. -/
theorem togglePoints_spec {ps : List (Fin 64 × Fin 32)} (h : ps.Nodup) (d : Display × Bool) :
    (∀ x y, (togglePoints d ps).1.at x y = (d.1.at x y ^^ decide ((x, y) ∈ ps))) ∧
    (togglePoints d ps).2 = (d.2 || ps.any fun p => d.1.at p.1 p.2) := by
  induction ps generalizing d with
  | nil => simp [togglePoints]
  | cons p ps ih =>
    obtain ⟨hp, hps⟩ := List.nodup_cons.mp h
    obtain ⟨ih1, ih2⟩ := ih hps (togglePixel d p.1 p.2)
    have hfold : togglePoints d (p :: ps) = togglePoints (togglePixel d p.1 p.2) ps := rfl
    constructor
    · intro x y
      rw [hfold, ih1, togglePixel_at]
      by_cases hxy : (x, y) = p
      · subst hxy
        simp [hp]
      · have : ¬(x = p.1 ∧ y = p.2) := fun e => hxy (Prod.ext e.1 e.2)
        simp [hxy, this]
    · rw [hfold, ih2]
      have hany : (ps.any fun q => (togglePixel d p.1 p.2).1.at q.1 q.2) = ps.any fun q => d.1.at q.1 q.2 := by
        rw [Bool.eq_iff_iff, List.any_eq_true, List.any_eq_true]
        refine exists_congr fun q => and_congr_right fun hq => ?_
        have hne : ¬(q.1 = p.1 ∧ q.2 = p.2) := fun e => hp (Prod.ext e.1 e.2 ▸ hq)
        simp [togglePixel_at, hne]
      rw [hany]
      simp [togglePixel, Display.at, Bool.or_assoc]

theorem mem_rowPoints {cx : Nat} {y : Fin 32} {bits : Byte} {p : Fin 64 × Fin 32} :
    p ∈ rowPoints cx y bits ↔
      ∃ col, col < 8 ∧ bits.getLsbD (7 - col) = true ∧ p.1 = Fin.ofNat 64 (cx + col) ∧ p.2 = y := by
  simp only [rowPoints, List.mem_map, List.mem_filter, List.mem_range, Prod.ext_iff]
  constructor
  · rintro ⟨col, ⟨h1, h2⟩, h3, h4⟩
    exact ⟨col, h1, h2, h3.symm, h4.symm⟩
  · rintro ⟨col, h1, h2, h3, h4⟩
    exact ⟨col, ⟨h1, h2⟩, h3.symm, h4.symm⟩

theorem mem_spritePoints {cx cy row : Nat} {bs : List Byte} {p : Fin 64 × Fin 32} :
    p ∈ spritePoints cx cy row bs ↔
      ∃ r, ∃ h : r < bs.length, ∃ col, col < 8 ∧ bs[r].getLsbD (7 - col) = true ∧
        p.1 = Fin.ofNat 64 (cx + col) ∧ p.2 = Fin.ofNat 32 (cy + row + r) := by
  induction bs generalizing row with
  | nil => simp [spritePoints]
  | cons b bs ih =>
    rw [spritePoints, List.mem_append, ih, mem_rowPoints]
    constructor
    · rintro (⟨col, h⟩ | ⟨r, hr, col, h1, h2, h3, h4⟩)
      · exact ⟨0, by simp, col, h⟩
      · refine ⟨r + 1, by simpa using hr, col, h1, by simpa using h2, h3, ?_⟩
        rw [h4]
        congr 1
        omega
    · rintro ⟨r, hr, col, h1, h2, h3, h4⟩
      cases r with
      | zero => exact .inl ⟨col, h1, h2, h3, h4⟩
      | succ r =>
        refine .inr ⟨r, by simpa using hr, col, h1, by simpa using h2, h3, ?_⟩
        rw [h4]
        congr 1
        omega

theorem rowPoints_nodup (cx : Nat) (y : Fin 32) (bits : Byte) : (rowPoints cx y bits).Nodup := by
  refine List.Nodup.map_on ?_ (List.nodup_range.filter _)
  intro a ha b hb h
  have ha : a < 8 := List.mem_range.mp (List.mem_of_mem_filter ha)
  have hb : b < 8 := List.mem_range.mp (List.mem_of_mem_filter hb)
  have h := congrArg Fin.val (Prod.ext_iff.mp h).1
  simp only [Fin.val_ofNat] at h
  omega

/-- In one Dxyn no pixel is visited twice (R84). -/
theorem spritePoints_nodup {cx cy row : Nat} {bs : List Byte} (h : bs.length ≤ 32) :
    (spritePoints cx cy row bs).Nodup := by
  induction bs generalizing row with
  | nil => exact List.nodup_nil
  | cons b bs ih =>
    simp only [List.length_cons] at h
    refine List.nodup_append'.mpr ⟨rowPoints_nodup _ _ _, ih (by omega), ?_⟩
    intro p hp hq
    obtain ⟨_, _, _, _, hy⟩ := mem_rowPoints.mp hp
    obtain ⟨r, hr, _, _, _, _, hy'⟩ := mem_spritePoints.mp hq
    have h := congrArg Fin.val (hy.symm.trans hy')
    simp only [Fin.val_ofNat] at h
    omega

/-! ## Dxyn as a whole -/

/-- The points a Dxyn toggles in a state, under a given VF_ALIAS_MODE. -/
def drawnPoints (mode : Config.VfAliasMode) (x y : Reg) (rows : List Byte) (s : State) : List (Fin 64 × Fin 32) :=
  spritePoints (spriteColumn mode x s) (spriteRow mode y s) 0 rows

theorem drawSprite_spec (mode : Config.VfAliasMode) (x y : Reg) {rows : List Byte} (s : State) (h : rows.length ≤ 32) :
    (∀ px py, (drawSprite mode x y rows s).pixelAt px py =
      (s.pixelAt px py ^^ decide ((px, py) ∈ drawnPoints mode x y rows s))) ∧
    (drawSprite mode x y rows s).reg Reg.VF =
      boolByte ((drawnPoints mode x y rows s).any fun p => s.pixelAt p.1 p.2) := by
  obtain ⟨h1, h2⟩ := togglePoints_spec (spritePoints_nodup h) (s.disp, false)
    (ps := drawnPoints mode x y rows s)
  refine ⟨fun px py => ?_, ?_⟩
  · have : (drawSprite mode x y rows s).disp =
        (togglePoints (s.disp, false) (drawnPoints mode x y rows s)).1 := by
      simp [drawSprite, drawRows_eq, drawnPoints]
    exact (congrArg (fun d : Display => d.at px py) this).trans (h1 px py)
  · have : (drawSprite mode x y rows s).reg Reg.VF =
        boolByte (togglePoints (s.disp, false) (drawnPoints mode x y rows s)).2 := by
      simp only [drawSprite, drawRows_eq, drawnPoints]
      exact State.setReg_reg_same s Reg.VF _
    rw [this, h2]
    rfl

/-- Dxyn changes VF and the display only. -/
theorem drawSprite_only (mode : Config.VfAliasMode) (x y : Reg) (rows : List Byte) (s : State) :
    drawSprite mode x y rows s =
      { s.setReg Reg.VF ((drawSprite mode x y rows s).reg Reg.VF) with
        disp := (drawSprite mode x y rows s).disp } := by
  have : (drawSprite mode x y rows s).reg Reg.VF =
      boolByte (drawRows (spriteColumn mode x s) (spriteRow mode y s) 0 rows (s.disp, false)).2 :=
    State.setReg_reg_same s Reg.VF _
  rw [this]
  rfl

/-- Dxyn's two outcomes. -/
theorem drawUnder_eq (mode : Config.VfAliasMode) (x y : Reg) (n : Fin 16) (s : State) :
    drawUnder mode x y n s =
      if n.val = 0 ∨ s.i.toNat + n.val ≤ 4096 then .next (drawSprite mode x y (s.bytesAt s.i.toNat n.val) s)
      else .fault .memoryOutOfRange := by
  simp only [drawUnder, State.readBytes_eq, baseAddr]
  by_cases h : n.val = 0 ∨ s.i.toNat + n.val ≤ 4096
  · rw [if_pos h, if_pos h]
  · rw [if_neg h, if_neg h]

end Sys2Proof.Machine
end

