-- ==== Sys2Proof/Laws/Frame.lean ====
section
/-! SUPPORT. Frames of the shared operations: what each leaves unchanged, and how frames compose. -/

namespace Sys2Proof.Machine

theorem Component.same_refl (c : Component) (s : State) : c.same s s := by
  cases c <;> rfl

theorem Component.same_trans {c : Component} {s t u : State} (h : c.same s t) (h' : c.same t u) : c.same s u := by
  cases c <;> exact Eq.trans h' h

theorem KeepsAllBut.refl {w : Component → Prop} (s : State) : KeepsAllBut w s s := fun c _ => c.same_refl s

theorem KeepsAllBut.mono {w w' : Component → Prop} {s t : State} (h : KeepsAllBut w s t) (hw : ∀ c, w c → w' c) :
    KeepsAllBut w' s t := fun c hc => h c fun hwc => hc (hw c hwc)

theorem KeepsAllBut.trans {w : Component → Prop} {s t u : State} (h : KeepsAllBut w s t) (h' : KeepsAllBut w t u) :
    KeepsAllBut w s u := fun c hc => Component.same_trans (h c hc) (h' c hc)

/-- A register write changes that register only. -/
theorem setReg_keeps (s : State) (x : Reg) (b : Byte) : KeepsAllBut (fun c => c = .reg x) s (s.setReg x b) := by
  intro c hc
  cases c with
  | reg r => exact State.setReg_reg_other s b fun h => hc (by rw [h])
  | _ => rfl

theorem setFlagThenReg_keeps (s : State) (f b : Byte) (x : Reg) :
    KeepsAllBut (fun c => c = .reg x ∨ c = .reg Reg.VF) s (s.setFlagThenReg f x b) :=
  ((setReg_keeps s Reg.VF f).mono fun _ h => .inr h).trans ((setReg_keeps _ x b).mono fun _ h => .inl h)

theorem setPc_keeps (s : State) (w : Word) : KeepsAllBut (fun c => c = .pc) s (s.setPc w) := by
  intro c hc
  cases c with
  | pc => exact absurd rfl hc
  | _ => rfl

theorem setI_keeps (s : State) (w : Word) : KeepsAllBut (fun c => c = .addr) s (s.setI w) := by
  intro c hc
  cases c with
  | addr => exact absurd rfl hc
  | _ => rfl

theorem setTimer_keeps (s : State) (b : Byte) : KeepsAllBut (fun c => c = .timer) s (s.setTimer b) := by
  intro c hc
  cases c with
  | timer => exact absurd rfl hc
  | _ => rfl

theorem nextDraw_keeps (s : State) : KeepsAllBut (fun c => c = .draws) s s.nextDraw := by
  intro c hc
  cases c with
  | draws => exact absurd rfl hc
  | _ => rfl

theorem tick_keeps (s : State) : KeepsAllBut (fun c => c = .timer) s s.tick := by
  unfold State.tick
  split
  · exact setTimer_keeps s _
  · exact KeepsAllBut.refl s

/-- A push changes sp and the slot at sp only. -/
theorem push_keeps {s t : State} {w : Word} (h : s.push w = .ok t) :
    KeepsAllBut (fun c => c = .sp ∨ ∃ j : Fin 16, j.val = s.sp.toNat ∧ c = .slot j) s t := by
  rcases State.push_cases s w with ⟨hlt, hp⟩ | ⟨-, hp⟩
  · rw [hp] at h
    obtain rfl := Except.ok.inj h
    intro c hc
    cases c with
    | sp => exact absurd (.inl rfl) hc
    | slot j =>
      have hne : s.sp.toNat ≠ j.val := fun e => hc (.inr ⟨j, e.symm, rfl⟩)
      exact Vector.getElem_set_ne hlt j.isLt hne
    | _ => rfl
  · rw [hp] at h
    cases h

/-- A pop changes sp only. -/
theorem pop_keeps {s t : State} {w : Word} (h : s.pop = .ok (w, t)) : KeepsAllBut (fun c => c = .sp) s t := by
  rcases State.pop_cases s with ⟨-, hp⟩ | ⟨hlt, -, hp⟩ | ⟨-, hp⟩
  · rw [hp] at h; cases h
  · rw [hp] at h
    obtain ⟨-, rfl⟩ := Prod.mk.inj (Except.ok.inj h)
    intro c hc
    cases c with
    | sp => exact absurd rfl hc
    | _ => rfl
  · rw [hp] at h; cases h

/-- A memory update changes bytes only, and only where it differs. -/
theorem withMem_keeps (s : State) (m : Memory) :
    KeepsAllBut (fun c => ∃ a, m.get a ≠ s.mem.get a ∧ c = .byte a) s { s with mem := m } := by
  intro c hc
  cases c with
  | byte a => exact not_not.mp fun h => hc ⟨a, h, rfl⟩
  | _ => rfl

/-- A block write changes the bytes of the block only. -/
theorem setBytes_keeps (s : State) (base : Nat) (bs : List Byte) :
    KeepsAllBut (fun c => ∃ k, k < bs.length ∧ c = .byte (base + k)) s { s with mem := s.mem.setBytes base bs } := by
  refine (withMem_keeps s _).mono ?_
  rintro c ⟨a, ha, rfl⟩
  by_cases h : base ≤ a ∧ a < base + bs.length
  · exact ⟨a - base, by omega, by congr 1; omega⟩
  · exact absurd (Memory.get_setBytes_outside s.mem h) ha

theorem writeBytes_keeps {s t : State} {a : Nat} {bs : List Byte} (h : s.writeBytes a bs = .ok t) :
    KeepsAllBut (fun c => ∃ k, k < bs.length ∧ c = .byte (a + k)) s t := by
  rw [State.writeBytes_eq] at h
  split at h
  · obtain rfl := Except.ok.inj h
    exact setBytes_keeps s a bs
  · cases h

/-- A register block load changes the registers of the block only. -/
theorem loadRegsFrom_keeps {s : State} {bs : List Byte} (h : bs.length ≤ 16) :
    KeepsAllBut (fun c => ∃ r : Reg, r.val < bs.length ∧ c = .reg r) s (s.loadRegsFrom 0 bs) := by
  intro c hc
  rw [State.loadRegsFrom_only_v]
  cases c with
  | reg r =>
    have hr : ¬ r.val < bs.length := fun hlt => hc ⟨r, hlt, rfl⟩
    have := State.loadRegsFrom_reg (s := s) (r := 0) (bs := bs) (by omega) r
    rw [if_pos (Nat.zero_le _), List.getElem?_eq_none (by omega)] at this
    exact this
  | _ => rfl

/-- Dxyn changes VF and pixels only. -/
theorem drawSprite_keeps (mode : Config.VfAliasMode) (x y : Reg) (rows : List Byte) (s : State) :
    KeepsAllBut (fun c => c = .reg Reg.VF ∨ ∃ px py, c = .pixel px py) s (drawSprite mode x y rows s) := by
  rw [drawSprite_only]
  intro c hc
  cases c with
  | reg r => exact State.setReg_reg_other s _ fun h => hc (.inl (by rw [h]))
  | pixel px py => exact absurd (.inr ⟨px, py, rfl⟩) hc
  | _ => rfl

end Sys2Proof.Machine
end

