-- ==== Sys2Proof/Laws/PerInstr.lean ====
section
/-! SUPPORT. Statements for all instructions, one lemma per constructor. RowMatch: the word of an instruction matches the
instruction's own row of the opcode map, `(w AND mask) == match` (spec 30_encoding.md R64). -/

namespace Sys2Proof.Laws.RowMatch

/-- The instruction's row exists and matches its word. -/
def Statement (i : Instr) : Prop :=
  ∃ r, opcodeMap[i.row - 1]? = some r ∧ r.matchesWord (encode i) = true

/-- A word matches a row when its bits under the mask are the pattern. -/
theorem of_mask {i : Instr} {p m : Word} (hr : opcodeMap[i.row - 1]? = some ⟨p, m⟩) (hm : encode i &&& m = p) :
    Statement i :=
  ⟨⟨p, m⟩, hr, by simp [OpcodeRow.matchesWord, hm]⟩

theorem cls : Statement .cls := of_mask rfl rfl
theorem ret : Statement .ret := of_mask rfl rfl
theorem jp (nnn : Addr12) : Statement (.jp nnn) := of_mask rfl (mask_formatNNN _ _)
theorem call (nnn : Addr12) : Statement (.call nnn) := of_mask rfl (mask_formatNNN _ _)
theorem seImm (x : Reg) (kk : Byte) : Statement (.seImm x kk) := of_mask rfl (mask_formatXKK _ _ _)
theorem sneImm (x : Reg) (kk : Byte) : Statement (.sneImm x kk) := of_mask rfl (mask_formatXKK _ _ _)
theorem seReg (x y : Reg) : Statement (.seReg x y) := of_mask rfl (mask_formatXYS _ _ _ _)
theorem ldImm (x : Reg) (kk : Byte) : Statement (.ldImm x kk) := of_mask rfl (mask_formatXKK _ _ _)
theorem addImm (x : Reg) (kk : Byte) : Statement (.addImm x kk) := of_mask rfl (mask_formatXKK _ _ _)
theorem ldReg (x y : Reg) : Statement (.ldReg x y) := of_mask rfl (mask_formatXYS _ _ _ _)
theorem or (x y : Reg) : Statement (.or x y) := of_mask rfl (mask_formatXYS _ _ _ _)
theorem and (x y : Reg) : Statement (.and x y) := of_mask rfl (mask_formatXYS _ _ _ _)
theorem xor (x y : Reg) : Statement (.xor x y) := of_mask rfl (mask_formatXYS _ _ _ _)
theorem addReg (x y : Reg) : Statement (.addReg x y) := of_mask rfl (mask_formatXYS _ _ _ _)
theorem sub (x y : Reg) : Statement (.sub x y) := of_mask rfl (mask_formatXYS _ _ _ _)
theorem shr (x y : Reg) : Statement (.shr x y) := of_mask rfl (mask_formatXYS _ _ _ _)
theorem subn (x y : Reg) : Statement (.subn x y) := of_mask rfl (mask_formatXYS _ _ _ _)
theorem shl (x y : Reg) : Statement (.shl x y) := of_mask rfl (mask_formatXYS _ _ _ _)
theorem sneReg (x y : Reg) : Statement (.sneReg x y) := of_mask rfl (mask_formatXYS _ _ _ _)
theorem ldI (nnn : Addr12) : Statement (.ldI nnn) := of_mask rfl (mask_formatNNN _ _)
theorem jpV0 (nnn : Addr12) : Statement (.jpV0 nnn) := of_mask rfl (mask_formatNNN _ _)
theorem rnd (x : Reg) (kk : Byte) : Statement (.rnd x kk) := of_mask rfl (mask_formatXKK _ _ _)
theorem drw (x y : Reg) (n : Fin 16) : Statement (.drw x y n) := of_mask rfl (mask_formatXYN _ _ _ _)
theorem ldVxDt (x : Reg) : Statement (.ldVxDt x) := of_mask rfl (mask_formatXS _ _)
theorem ldDtVx (x : Reg) : Statement (.ldDtVx x) := of_mask rfl (mask_formatXS _ _)
theorem addI (x : Reg) : Statement (.addI x) := of_mask rfl (mask_formatXS _ _)
theorem ldF (x : Reg) : Statement (.ldF x) := of_mask rfl (mask_formatXS _ _)
theorem ldB (x : Reg) : Statement (.ldB x) := of_mask rfl (mask_formatXS _ _)
theorem storeRegs (x : Reg) : Statement (.storeRegs x) := of_mask rfl (mask_formatXS _ _)
theorem loadRegs (x : Reg) : Statement (.loadRegs x) := of_mask rfl (mask_formatXS _ _)

end Sys2Proof.Laws.RowMatch
end

