-- ==== Sys2Proof/Laws/Step.lean ====
section
/-! SUPPORT. What a step can do, said once: a fetch fault, an instruction followed by the tick, or an unknown word. -/

namespace Sys2Proof.Machine

theorem State.fetch_wordAtPc (s : State) :
    s.fetch = if s.pc.toNat < 0xFFF then .ok s.wordAtPc else .error .memoryOutOfRange := by
  rw [State.fetch_eq]
  by_cases h : s.pc.toNat < 0xFFF
  · rw [if_pos h, if_pos (by omega)]
    rfl
  · rw [if_neg h, if_neg (by omega)]

theorem State.nextInstr_eq_some {s : State} {i : Instr} :
    s.nextInstr = some i ↔ s.pc.toNat < 0xFFF ∧ decode s.wordAtPc = .ok i := by
  unfold State.nextInstr
  split
  · rename_i h
    cases decode s.wordAtPc <;> simp [Except.toOption, h]
  · rename_i h
    simp [h]

/-- A step under either policy, by the word at pc. -/
theorem stepUnder_eq (policy : Config.UnknownPolicy) (s : State) :
    stepUnder policy s =
      if s.pc.toNat < 0xFFF then finishStep (execWord policy s.wordAtPc s.advancePc)
      else .fault .memoryOutOfRange := by
  rw [stepUnder, State.fetch_wordAtPc]
  by_cases h : s.pc.toNat < 0xFFF
  · rw [if_pos h, if_pos h]
  · rw [if_neg h, if_neg h]

theorem step_out {s : State} (h : 0xFFF ≤ s.pc.toNat) : step s = .fault .memoryOutOfRange := by
  rw [step, stepUnder_eq, if_neg (by omega)]

theorem step_instr {s : State} {i : Instr} (h : s.nextInstr = some i) :
    step s = finishStep (exec i s.advancePc) := by
  obtain ⟨hpc, hd⟩ := State.nextInstr_eq_some.mp h
  rw [step, stepUnder_eq, if_pos hpc, execWord, hd]

theorem step_unknown {s : State} {u : UnknownOpcode} (hpc : s.pc.toNat < 0xFFF)
    (hd : decode s.wordAtPc = .error u) : step s = .next s.advancePc.tick := by
  rw [step, stepUnder_eq, if_pos hpc, execWord, hd]
  rfl

/-- Every step is one of three: a fetch fault, an instruction, an unknown word. -/
theorem step_cases (s : State) :
    (0xFFF ≤ s.pc.toNat ∧ s.nextInstr = none ∧ step s = .fault .memoryOutOfRange) ∨
    (∃ i, s.nextInstr = some i ∧ step s = finishStep (exec i s.advancePc)) ∨
    (∃ u, s.pc.toNat < 0xFFF ∧ decode s.wordAtPc = .error u ∧ s.nextInstr = none ∧
      step s = .next s.advancePc.tick) := by
  by_cases hpc : s.pc.toNat < 0xFFF
  · cases hd : decode s.wordAtPc with
    | ok i =>
      have h := State.nextInstr_eq_some.mpr ⟨hpc, hd⟩
      exact .inr (.inl ⟨i, h, step_instr h⟩)
    | error u =>
      exact .inr (.inr ⟨u, hpc, rfl, by simp [State.nextInstr, hpc, hd, Except.toOption], step_unknown hpc hd⟩)
  · exact .inl ⟨by omega, by simp [State.nextInstr, hpc], step_out (by omega)⟩

/-- A successful step: an instruction ran to a next state and the timer ticked, or an unknown word ticked only. -/
theorem step_next {s t : State} (h : step s = .next t) :
    (∃ i u, s.nextInstr = some i ∧ exec i s.advancePc = .next u ∧ t = u.tick) ∨
    (s.nextInstr = none ∧ t = s.advancePc.tick) := by
  rcases step_cases s with ⟨-, -, hs⟩ | ⟨i, hi, hs⟩ | ⟨_, -, -, hn, hs⟩
  · rw [hs] at h; cases h
  · rw [hs] at h
    obtain ⟨u, hu, rfl⟩ := finishStep_next h
    exact .inl ⟨i, u, hi, hu, rfl⟩
  · rw [hs] at h
    cases h
    exact .inr ⟨hn, rfl⟩

/-! ## The outcomes of the instructions that can fault -/

theorem execCall_eq (nnn : Addr12) (s : State) :
    execCall nnn s = if h : s.sp.toNat < 16 then
      .next ({ s with stack := s.stack.set s.sp.toNat s.pc, sp := s.sp + 1 }.setPc (zextAddr nnn))
      else .fault .stackOverflow := by
  unfold execCall
  rcases State.push_cases s s.pc with ⟨h, hp⟩ | ⟨h, hp⟩
  · rw [hp, dif_pos h]
  · rw [hp, dif_neg (by omega)]

theorem execLdB_eq (x : Reg) (s : State) :
    execLdB x s = if s.i.toNat + 3 ≤ 4096 then
      .next { s with mem := s.mem.setBytes s.i.toNat (bcdDigits (s.reg x)) } else .fault .memoryOutOfRange := by
  simp only [execLdB, State.writeBytes_eq, baseAddr, bcdDigits, List.length_cons, List.length_nil]
  by_cases h : s.i.toNat + 3 ≤ 4096
  · rw [if_pos (.inr h), if_pos h]; rfl
  · rw [if_neg (by simp; omega), if_neg h]; rfl

theorem execStoreRegs_eq (x : Reg) (s : State) :
    execStoreRegs x s = if s.i.toNat + (x.val + 1) ≤ 4096 then
      .next { s with mem := s.mem.setBytes s.i.toNat (s.regsUpTo x) } else .fault .memoryOutOfRange := by
  have hne : s.regsUpTo x ≠ [] := by
    intro h
    have := State.regsUpTo_length s x
    rw [h] at this
    simp at this
  simp only [execStoreRegs, State.writeBytes_eq, baseAddr, State.regsUpTo_length]
  by_cases h : s.i.toNat + (x.val + 1) ≤ 4096
  · rw [if_pos (.inr h), if_pos h]; rfl
  · rw [if_neg (by simp [hne, h]), if_neg h]; rfl

theorem execLoadRegs_eq (x : Reg) (s : State) :
    execLoadRegs x s = if s.i.toNat + (x.val + 1) ≤ 4096 then
      .next (s.loadRegsFrom 0 (s.bytesAt s.i.toNat (x.val + 1))) else .fault .memoryOutOfRange := by
  simp only [execLoadRegs, State.readBytes_eq, baseAddr]
  by_cases h : s.i.toNat + (x.val + 1) ≤ 4096
  · rw [if_pos (.inr h), if_pos h]
  · rw [if_neg (by omega), if_neg h]

theorem skipIf_eq (c : Bool) (s : State) : skipIf c s = .next (if c then s.advancePc else s) := rfl

end Sys2Proof.Machine
end

