-- ==== Sys2Proof/Laws/Transactions.lean ====
section
/-! SUPPORT. What the host's `load` and restart do, said once (spec 70_reset_and_hazards.md R138 to R141). -/

namespace Sys2Proof.Machine

/-- An image that fits is written whole and nothing else changes. -/
theorem State.load_fits {s : State} {bytes : List Byte} {base : Nat} (h : base + bytes.length ≤ 4096) :
    s.load bytes base = .ok { s with mem := s.mem.setBytes base bytes } :=
  if_neg (Nat.not_lt.mpr h)

/-- An image that does not fit is refused whole. -/
theorem State.load_too_large {s : State} {bytes : List Byte} {base : Nat} (h : base + bytes.length > 4096) :
    s.load bytes base = .error .imageTooLarge :=
  if_pos h

/-- The memory of the reset state of any FONT, byte by byte. -/
theorem State.resetWith_get (fontBytes : Vector Byte 80) (a : Nat) :
    (State.resetWith fontBytes).mem.get a = if h : a < 80 then fontBytes[a] else 0 := by
  show (Memory.setBytes [] 0 fontBytes.toList).get a = _
  rw [Memory.get_setBytes]
  simp only [Nat.zero_le, if_true, Nat.sub_zero, Memory.get_nil]
  split
  · rename_i h
    rw [List.getElem?_eq_getElem (by simpa using h)]
    simp
  · rename_i h
    have hlen : font.length = 80 := by decide
    rw [List.getElem?_eq_none (by simpa using h), unlisted, List.getD_eq_getElem?_getD,
      List.getElem?_eq_none (by omega)]
    rfl

end Sys2Proof.Machine
end

