-- ==== Sys2Proof/Machine/Assembler.lean ====
section
/-! DEFINITION. The assembler of spec 30_encoding.md R66: lines of text to bytes at addresses. No rule of the machine
depends on it (92_eei_decisions.md D17). Text is a list of characters. What R66 leaves open is in log entry 7. -/

namespace Sys2Proof.Asm

abbrev Text := List Char

/-- Why a source is refused. -/
inductive AsmError where
  /-- a line that is none of R66's forms -/
  | badLine
  /-- a mnemonic and operand shape that is none of R66's, or a number that does not fit its field -/
  | illFormed
  /-- a label that no line defines, or one where no `nnn` is expected -/
  | badLabel
  /-- a label that two lines define -/
  | duplicateLabel
  deriving DecidableEq, Repr

/-! ## Words of a line -/

def isBlank (c : Char) : Bool := c == ' ' || c == '\t' || c == '\r'

def trim (t : Text) : Text := ((t.dropWhile isBlank).reverse.dropWhile isBlank).reverse

/-- The pieces of a text between the separators. -/
def pieces (sep : Char) : Text → List Text
  | [] => [[]]
  | c :: cs =>
    if c == sep then [] :: pieces sep cs
    else
      match pieces sep cs with
      | [] => [[c]]
      | p :: ps => (c :: p) :: ps

/-- Mnemonics and register names are case-insensitive (R66). -/
def lower (t : Text) : Text := t.map Char.toLower

def digitValue (c : Char) : Option Nat :=
  if '0' ≤ c ∧ c ≤ '9' then some (c.toNat - '0'.toNat)
  else if 'a' ≤ c.toLower ∧ c.toLower ≤ 'f' then some (c.toLower.toNat - 'a'.toNat + 10)
  else none

/-- The value of a digit string in a base, or none if a character is no digit of the base. -/
def digitsValue (base : Nat) : Nat → Text → Option Nat
  | acc, [] => some acc
  | acc, c :: cs =>
    match digitValue c with
    | some d => if d < base then digitsValue base (acc * base + d) cs else none
    | none => none

/-- A number is hexadecimal with the mark `0x`, or decimal (R66). DESIGN CHOICE: `0X` is accepted too; log entry 7. -/
def number (t : Text) : Option Nat :=
  match t with
  | '0' :: c :: d :: ds => if c.toLower == 'x' then digitsValue 16 0 (d :: ds) else digitsValue 10 0 t
  | _ :: _ => digitsValue 10 0 t
  | [] => none

def isNameChar (c : Char) : Bool := c.isAlphanum || c == '_'

/-- A label's name: letters, digits and underscores, no digit first. DESIGN CHOICE; log entry 7. -/
def isName (t : Text) : Bool :=
  match t with
  | c :: _ => !c.isDigit && t.all isNameChar
  | [] => false

def mnemonic (t : Text) : Option Mnemonic :=
  match lower t with
  | ['c', 'l', 's'] => some .cls
  | ['r', 'e', 't'] => some .ret
  | ['j', 'p'] => some .jp
  | ['c', 'a', 'l', 'l'] => some .call
  | ['s', 'e'] => some .se
  | ['s', 'n', 'e'] => some .sne
  | ['l', 'd'] => some .ld
  | ['a', 'd', 'd'] => some .add
  | ['o', 'r'] => some .or
  | ['a', 'n', 'd'] => some .and
  | ['x', 'o', 'r'] => some .xor
  | ['s', 'u', 'b'] => some .sub
  | ['s', 'h', 'r'] => some .shr
  | ['s', 'u', 'b', 'n'] => some .subn
  | ['s', 'h', 'l'] => some .shl
  | ['r', 'n', 'd'] => some .rnd
  | ['d', 'r', 'w'] => some .drw
  | _ => none

/-! ## Lines -/

/-- An operand of a source line: R66's operand, or a label to be given its address. -/
inductive SourceOperand where
  | known (o : Operand)
  | label (name : Text)
  deriving DecidableEq, Repr

/-- What a line holds besides a label (R66). -/
inductive Body where
  | empty
  | instr (m : Mnemonic) (ops : List SourceOperand)
  /-- `ORG addr` -/
  | org (addr : Nat)
  /-- `DB b, b, ...` -/
  | db (bytes : List Nat)
  /-- `DW w` -/
  | dw (w : Nat)
  deriving DecidableEq, Repr

structure Line where
  label : Option Text
  body : Body
  deriving DecidableEq, Repr

/-- A number, or the name of a label. -/
def numberOrLabel (t : Text) : Option SourceOperand :=
  match number t with
  | some n => some (.known (.num n))
  | none => if isName t then some (.label t) else none

/-- One operand (R66). DESIGN CHOICE: the words I, DT, F, B, [I] and V0 to VF, in any case, win over a label of that name;
log entry 7. -/
def operand (t : Text) : Option SourceOperand :=
  match lower t with
  | ['i'] => some (.known .i)
  | ['d', 't'] => some (.known .dt)
  | ['f'] => some (.known .f)
  | ['b'] => some (.known .b)
  | ['[', 'i', ']'] => some (.known .atI)
  | ['v', d] =>
    match digitValue d with
    | some r => some (.known (.v r))
    | none => numberOrLabel t
  | _ => numberOrLabel t

/-- Comma-separated operands, or none written. -/
def operandTexts (t : Text) : List Text := if t.isEmpty then [] else (pieces ',' t).map trim

/-- The part of a line after its label and before its comment. DESIGN CHOICE: the directives are read in any case and take
numbers only; log entry 7. -/
def body (t : Text) : Option Body :=
  let head := t.takeWhile fun c => !isBlank c
  let rest := operandTexts (trim (t.dropWhile fun c => !isBlank c))
  match t, lower head with
  | [], _ => some .empty
  | _, ['o', 'r', 'g'] =>
    match rest with
    | [a] => (number a).map .org
    | _ => none
  | _, ['d', 'b'] => if rest.isEmpty then none else (rest.mapM number).map .db
  | _, ['d', 'w'] =>
    match rest with
    | [w] => (number w).map .dw
    | _ => none
  | _, _ => do
    let m ← mnemonic head
    let ops ← rest.mapM operand
    return .instr m ops

/-- One line: an optional `label:`, a body, an optional `; comment` (R66). DESIGN CHOICE: a label and a body may share the
line, and a line has at most one label; log entry 7. -/
def line (t : Text) : Option Line :=
  let code := trim (t.takeWhile (· != ';'))
  match pieces ':' code with
  | [c] => (body c).map fun b => ⟨none, b⟩
  | [l, c] => if isName l then (body (trim c)).map fun b => ⟨some l, b⟩ else none
  | _ => none

/-! ## Addresses and bytes -/

/-- The address after a body that stands at addr. DESIGN CHOICE: it is an unbounded number; log entry 7. -/
def Body.after (addr : Nat) : Body → Nat
  | .empty => addr
  | .instr _ _ => addr + 2
  | .org a => a
  | .db bs => addr + bs.length
  | .dw _ => addr + 2

/-- The labels with their addresses (R66). DESIGN CHOICE: a label before ORG on one line has the address before ORG moves
it; log entry 7. -/
def labels : Nat → List Line → List (Text × Nat)
  | _, [] => []
  | addr, l :: ls =>
    let rest := labels (l.body.after addr) ls
    match l.label with
    | some name => (name, addr) :: rest
    | none => rest

/-- A label stands only where `nnn` is expected (R66): JP, CALL, and LD I. -/
def labelAllowed (m : Mnemonic) (ops : List SourceOperand) : Bool :=
  match m, ops with
  | .jp, _ => true
  | .call, _ => true
  | .ld, .known .i :: _ => true
  | _, _ => ops.all fun o =>
    match o with
    | .known _ => true
    | .label _ => false

/-- An operand with its label replaced by the label's address. -/
def resolve (table : List (Text × Nat)) : SourceOperand → Option Operand
  | .known o => some o
  | .label name => (table.lookup name).map .num

/-- The bytes of a body; words big-endian (R66, R53). -/
def Body.bytes (table : List (Text × Nat)) : Body → Except AsmError (List Byte)
  | .empty => .ok []
  | .org _ => .ok []
  | .instr m ops =>
    match (if labelAllowed m ops then ops.mapM (resolve table) else none) with
    | none => .error .badLabel
    | some known =>
      match assemble ⟨m, known⟩ with
      | some i => .ok (encodeBytes i)
      | none => .error .illFormed
  | .db bs =>
    if bs.all (Operand.numFits 8) then .ok (bs.map (BitVec.ofNat 8)) else .error .illFormed
  | .dw w =>
    if Operand.numFits 16 w then .ok [highByte (BitVec.ofNat 16 w), lowByte (BitVec.ofNat 16 w)]
    else .error .illFormed

/-- The bytes of each line at the line's address. DESIGN CHOICE: no address is checked here, against 0xFFF or another line's
bytes; the host's `load` refuses an image beyond memory. Log entry 7. -/
def emit (table : List (Text × Nat)) : Nat → List Line → Except AsmError (List (Nat × List Byte))
  | _, [] => .ok []
  | addr, l :: ls =>
    match l.body.bytes table with
    | .error e => .error e
    | .ok [] => emit table (l.body.after addr) ls
    | .ok bs =>
      match emit table (l.body.after addr) ls with
      | .error e => .error e
      | .ok rest => .ok ((addr, bs) :: rest)

/-- A source text to the images the host loads, each at its base; assembly starts at 0x200 (R66). -/
def assembleText (source : Text) : Except AsmError (List (Nat × List Byte)) :=
  match (pieces '\n' source).mapM line with
  | none => .error .badLine
  | some ls =>
    let table := labels 0x200 ls
    if (table.map Prod.fst).Nodup then emit table 0x200 ls else .error .duplicateLabel

end Sys2Proof.Asm
end

