-- ==== Sys2Proof/Tests/Slice0.lean ====
section
/-! SUPPORT. The model's own tests. Expected results are the spec's: the encodings of 30_encoding.md R55 and R64 written out
bit by bit, and the vectors of 95_test_vectors.md, whose ids the comments give. A `witness_` theorem shows that the
hypotheses of a statement can be met together. -/

namespace Sys2Proof.Tests

open Sys2Proof Sys2Proof.Machine

/-! ## What the assembler refuses: one ill-formed term for each check of WellFormed -/

theorem test_refuse_shape : assemble ⟨.cls, [.v 0]⟩ = none := by decide
theorem test_refuse_shape_order : assemble ⟨.ld, [.num 1, .v 0]⟩ = none := by decide
theorem test_refuse_register : assemble ⟨.ld, [.v 16, .num 0]⟩ = none := by decide
theorem test_refuse_second_register : assemble ⟨.add, [.v 0, .v 16]⟩ = none := by decide
theorem test_refuse_nnn : assemble ⟨.jp, [.num 0x1000]⟩ = none := by decide
theorem test_refuse_kk : assemble ⟨.rnd, [.v 0, .num 256]⟩ = none := by decide
theorem test_refuse_n : assemble ⟨.drw, [.v 0, .v 1, .num 16]⟩ = none := by decide
theorem test_refuse_offset_register : assemble ⟨.jp, [.v 1, .num 0x300]⟩ = none := by decide
theorem test_accept_largest_fields :
    assemble ⟨.drw, [.v 15, .v 15, .num 15]⟩ = some (.drw 15 15 15) ∧
    assemble ⟨.jp, [.v 0, .num 0xFFF]⟩ = some (.jpV0 0xFFF) ∧ assemble ⟨.shr, [.v 3]⟩ = some (.shr 3 0) := by decide

/-! ## Decoding: a word of every row, bits written out from R55's layout and R64's match column -/

theorem test_decode_cls : decode 0b0000000011100000 = .ok (.cls) := by decide
theorem test_decode_ret : decode 0b0000000011101110 = .ok (.ret) := by decide
theorem test_decode_jp : decode 0b0001101010111100 = .ok (.jp 0xABC) := by decide
theorem test_decode_call : decode 0b0010001100000000 = .ok (.call 0x300) := by decide
theorem test_decode_seImm : decode 0b0011001101000010 = .ok (.seImm 3 0x42) := by decide
theorem test_decode_sneImm : decode 0b0100111100000001 = .ok (.sneImm 15 0x01) := by decide
theorem test_decode_seReg : decode 0b0101000100100000 = .ok (.seReg 1 2) := by decide
theorem test_decode_ldImm : decode 0b0110101001000010 = .ok (.ldImm 10 0x42) := by decide
theorem test_decode_addImm : decode 0b0111001011111110 = .ok (.addImm 2 0xFE) := by decide
theorem test_decode_ldReg : decode 0b1000000000010000 = .ok (.ldReg 0 1) := by decide
theorem test_decode_or : decode 0b1000010101100001 = .ok (.or 5 6) := by decide
theorem test_decode_and : decode 0b1000010101100010 = .ok (.and 5 6) := by decide
theorem test_decode_xor : decode 0b1000010101100011 = .ok (.xor 5 6) := by decide
theorem test_decode_addReg : decode 0b1000111100010100 = .ok (.addReg 15 1) := by decide
theorem test_decode_sub : decode 0b1000000011110101 = .ok (.sub 0 15) := by decide
theorem test_decode_shr : decode 0b1000001100000110 = .ok (.shr 3 0) := by decide
theorem test_decode_subn : decode 0b1000000100100111 = .ok (.subn 1 2) := by decide
theorem test_decode_shl : decode 0b1000111100001110 = .ok (.shl 15 0) := by decide
theorem test_decode_sneReg : decode 0b1001000100100000 = .ok (.sneReg 1 2) := by decide
theorem test_decode_ldI : decode 0b1010001011110000 = .ok (.ldI 0x2F0) := by decide
theorem test_decode_jpV0 : decode 0b1011111111111111 = .ok (.jpV0 0xFFF) := by decide
theorem test_decode_rnd : decode 0b1100010100001111 = .ok (.rnd 5 0x0F) := by decide
theorem test_decode_drw : decode 0b1101000100101111 = .ok (.drw 1 2 15) := by decide
theorem test_decode_ldVxDt : decode 0b1111000100000111 = .ok (.ldVxDt 1) := by decide
theorem test_decode_ldDtVx : decode 0b1111101000010101 = .ok (.ldDtVx 10) := by decide
theorem test_decode_addI : decode 0b1111010000011110 = .ok (.addI 4) := by decide
theorem test_decode_ldF : decode 0b1111101000101001 = .ok (.ldF 10) := by decide
theorem test_decode_ldB : decode 0b1111011100110011 = .ok (.ldB 7) := by decide
theorem test_decode_storeRegs : decode 0b1111001001010101 = .ok (.storeRegs 2) := by decide
theorem test_decode_loadRegs : decode 0b1111001001100101 = .ok (.loadRegs 2) := by decide

/-- V-ST8: the words that match no row, by group. -/
theorem test_decode_unknown :
    [0x0001, 0x00E1, 0x00FF, 0x0EE0].map decode = List.replicate 4 (.error .group0) ∧
    decode 0x5121 = .error .group5 ∧ decode 0x912F = .error .group9 ∧
    [0x8008, 0x800D, 0x800F].map decode = List.replicate 3 (.error .group8) ∧
    [0xE09E, 0xE0A1].map decode = List.replicate 2 (.error .groupE) ∧
    [0xF00A, 0xF018, 0xF0FF].map decode = List.replicate 3 (.error .groupF) := by decide

/-- The byte at the lower address is bits 15 to 8 (20_memory.md R37). -/
theorem test_decode_bytes_big_endian :
    decodeBytes [0x12, 0x34, 0x60] = .ok (.jp 0x234, [0x60]) ∧ decodeBytes [0x12] = .error .tooShort ∧
    decodeTableWord 16 0x1234 = some (.jp 0x234) ∧ decodeTableWord 16 0xE000 = none ∧
    encodeBytes (.jp 0x234) = [0x12, 0x34] := by decide

/-! ## The text assembler of R66 (log entry 7): the refusals and one program of each kind of line -/

/-- P1's lines `SE V0, 0` and `end: JP end` at 0x200, then a directive each; words as 95_test_vectors.md lists them. -/
theorem test_assemble_text :
    Asm.assembleText "SE V0, 0\nend: jp end ; idle\nORG 0x300\nDB 1, 0xFF\nDW 0xE000".toList =
      .ok [(0x200, [0x30, 0x00]), (0x202, [0x12, 0x02]), (0x300, [0x01, 0xFF]), (0x302, [0xE0, 0x00])] := by decide
/-- R66: a label may stand wherever nnn is expected, one whose name begins with v included. -/
theorem test_assemble_text_label_names :
    Asm.assembleText "vx: JP vx\nLD I, v_\nv_: LD VA, VF".toList =
      .ok [(0x200, [0x12, 0x00]), (0x202, [0xA2, 0x04]), (0x204, [0x8A, 0xF0])] := by decide
/-- Log entry 7: a label before ORG, the prefix 0X, a directive in lower case, an address above 0xFFF. -/
theorem test_assemble_text_choices :
    Asm.assembleText "a: org 0X1000\nJP a".toList = .ok [(0x1000, [0x12, 0x00])] := by decide
theorem test_assemble_text_refusals :
    Asm.assembleText "DB 256".toList = .error .illFormed ∧ Asm.assembleText "LD V0, end".toList = .error .badLabel ∧
    Asm.assembleText "JP end".toList = .error .badLabel ∧ Asm.assembleText "NOP".toList = .error .badLine ∧
    Asm.assembleText "a: CLS\na: RET".toList = .error .duplicateLabel := by decide

/-! ## One step on a small state -/

/-- A word at pc, big-endian. -/
def place (w : Word) (s : State) : State := { s with mem := s.mem.setBytes s.pc.toNat [highByte w, lowByte w] }

/-- The reset state with registers V0, V1, ... from a list, and VF. -/
def withRegs (vs : List Byte) (vf : Byte) : State := (State.reset.loadRegsFrom 0 vs).setReg Reg.VF vf

/-- The step succeeds and its state passes the check. -/
def okWith (r : Result) (p : State → Bool) : Bool :=
  match r with
  | .next t => p t
  | _ => false

/-- The FONT of log entry 3 as a vector. -/
def fontVector : Vector Byte 80 := ⟨font.toArray, by decide⟩

/-- The step ends in this fault. -/
def faultsWith (r : Result) (f : Fault) : Bool :=
  match r with
  | .fault g => g == f
  | _ => false


/-- V-ST1: the word read is 0x1234. -/
theorem test_fetch_big_endian :
    okWith (step { State.reset with mem := State.reset.mem.setBytes 0x200 [0x12, 0x34] }) (fun t => t.pc == 0x234) = true := by decide
/-- V-ST2: an odd pc. -/
theorem test_fetch_odd_pc :
    okWith (step (place 0x607F { State.reset with pc := 0x201 })) (fun t => t.pc == 0x203 && t.reg 0 == 0x7F) = true := by decide
/-- V-ST3 and V-ST4: the last word of memory, and the first pc that faults. -/
theorem test_fetch_boundary :
    okWith (step (place 0x6001 { State.reset with pc := 0xFFE })) (fun t => t.pc == 0x1000 && t.reg 0 == 1) = true ∧
    faultsWith (step { State.reset with pc := 0xFFF }) .memoryOutOfRange = true := by decide
/-- V-ST5: an unknown word is a no-op that ticks. -/
theorem test_unknown_is_noop :
    okWith (step (place 0xFFFF { State.reset with timer := 3 }))
      (fun t => t == { place 0xFFFF State.reset with pc := 0x202, timer := 2 }) = true := by decide
/-- V-ST6: the policy `fault`. -/
theorem test_unknown_faults_under_policy : faultsWith (stepUnder .fault (place 0xFFFF State.reset)) .illegalOpcode = true := by decide

/-- V-DS1. -/
theorem test_cls :
    okWith (step (place 0x00E0 { withRegs [] 7 with disp := Vector.replicate 32 5 }))
      (fun t => t.disp == Vector.replicate 32 0 && t.reg 15 == 7) = true := by decide
/-- V-DS5: the right and bottom edges wrap; pixels (62,31), (63,31), (4,31), (5,31). -/
theorem test_drw_wraps_columns :
    okWith (step (place 0xD011 { withRegs [0x3E, 0x1F] 9 with i := 0x300, mem := [(0x300, 0xC3)] }))
      (fun t => t.disp == (Vector.replicate 32 0).set 31 0xC000000000000030 && t.reg 15 == 0) = true := by decide
/-- V-DS6 and V-DS8: rows wrap; a sprite byte out of range faults. -/
theorem test_drw_wraps_rows_and_faults :
    okWith (step (place 0xD012 { withRegs [0, 0x1F] 0 with i := 0x300, mem := [(0x300, 0xFF), (0x301, 0xFF)] }))
      (fun t => t.disp == ((Vector.replicate 32 0).set 31 0xFF).set 0 0xFF) = true ∧
    faultsWith (step (place 0xD002 { withRegs [] 9 with i := 0xFFF })) .memoryOutOfRange = true := by decide
/-- V-DS3 and V-DS11: a set pixel that becomes clear is a collision. -/
theorem test_drw_collision :
    okWith (step (place 0xD011
        { withRegs [] 0 with i := 0x300, mem := [(0x300, 0xC0)], disp := Vector.replicate 32 3 }))
      (fun t => t.disp == (Vector.replicate 32 3).set 0 0 && t.reg 15 == 1) = true := by decide
/-- V-DS10: VF as a coordinate under both modes. -/
theorem test_drw_alias :
    okWith (drawUnder .latched 15 1 1 { withRegs [] 0x10 with i := 0x300, mem := [(0x300, 0x80)] })
      (fun t => t.disp == (Vector.replicate 32 0).set 0 0x10000 && t.reg 15 == 0) = true ∧
    okWith (drawUnder .sequential 15 1 1 { withRegs [] 0x10 with i := 0x300, mem := [(0x300, 0x80)] })
      (fun t => t.disp == (Vector.replicate 32 0).set 0 1 && t.reg 15 == 0) = true := by decide

/-- V-CF1. -/
theorem test_jp : okWith (step (place 0x1ABC State.reset)) (fun t => t.pc == 0xABC) = true := by decide
/-- V-CF3. -/
theorem test_call :
    okWith (step (place 0x2300 { State.reset with sp := 15 }))
      (fun t => t.pc == 0x300 && t.sp == 16 && t.slot 15 == 0x202) = true := by decide
/-- V-CF4. -/
theorem test_call_overflow : faultsWith (step (place 0x2300 { State.reset with sp := 16 })) .stackOverflow = true := by decide
/-- V-CF6. -/
theorem test_ret :
    okWith (step (place 0x00EE { State.reset with sp := 2, stack := State.reset.stack.set 1 0x456 }))
      (fun t => t.pc == 0x456 && t.sp == 1 && t.slot 1 == 0x456) = true := by decide
/-- V-CF5 and V-TM6: no tick on a fault. -/
theorem test_ret_underflow :
    transact fontVector (place 0x00EE { State.reset with timer := 3 }) .step =
      (place 0x00EE { State.reset with timer := 3 }, .fault .stackUnderflow) := by decide
/-- V-CF7 and V-CF8. -/
theorem test_seImm :
    okWith (step (place 0x3342 (State.reset.setReg 3 0x42))) (fun t => t.pc == 0x204) = true ∧
    okWith (step (place 0x3342 (State.reset.setReg 3 0x41))) (fun t => t.pc == 0x202) = true := by decide
/-- V-CF9 and V-CF10. -/
theorem test_sneImm :
    okWith (step (place 0x4342 (State.reset.setReg 3 0x41))) (fun t => t.pc == 0x204) = true ∧
    okWith (step (place 0x4342 (State.reset.setReg 3 0x42))) (fun t => t.pc == 0x202) = true := by decide
/-- V-CF11. -/
theorem test_seReg :
    okWith (step (place 0x5120 (withRegs [0, 7, 7] 0))) (fun t => t.pc == 0x204) = true ∧
    okWith (step (place 0x5120 (withRegs [0, 7, 8] 0))) (fun t => t.pc == 0x202) = true := by decide
/-- V-CF12 and V-CF13. -/
theorem test_sneReg :
    okWith (step (place 0x9120 (withRegs [0, 7, 8] 0))) (fun t => t.pc == 0x204) = true ∧
    okWith (step (place 0x9120 (withRegs [0, 7, 7] 0))) (fun t => t.pc == 0x202) = true := by decide
/-- V-CF18: the offset is V0 and the target is not reduced. -/
theorem test_jpV0 : okWith (step (place 0xBFFF (withRegs [0xFF] 0))) (fun t => t.pc == 0x10FE) = true := by decide

/-- V-AL1. -/
theorem test_ldImm : okWith (step (place 0x6A42 State.reset)) (fun t => t.reg 10 == 0x42) = true := by decide
/-- V-AL2. -/
theorem test_addImm :
    okWith (step (place 0x7203 (withRegs [0, 0, 0xFE] 5))) (fun t => t.reg 2 == 1 && t.reg 15 == 5) = true := by decide
/-- V-AL4. -/
theorem test_ldReg : okWith (step (place 0x8010 (withRegs [0, 0x33] 0))) (fun t => t.reg 0 == 0x33) = true := by decide
/-- V-AL5. -/
theorem test_or :
    okWith (step (place 0x8011 (withRegs [0xF0, 0x0F] 5))) (fun t => t.reg 0 == 0xFF && t.reg 15 == 5) = true := by decide
/-- V-AL6. -/
theorem test_and : okWith (step (place 0x8012 (withRegs [0xF0, 0x3C] 0))) (fun t => t.reg 0 == 0x30) = true := by decide
/-- V-AL7. -/
theorem test_xor : okWith (step (place 0x8013 (withRegs [0xF0, 0x3C] 0))) (fun t => t.reg 0 == 0xCC) = true := by decide
/-- L1-2. -/
theorem test_addReg :
    okWith (step (place 0x8014 (withRegs [0xFA, 0x0A] 0))) (fun t => t.reg 0 == 4 && t.reg 15 == 1) = true ∧
    okWith (step (place 0x8014 (withRegs [0xFA, 0x05] 9))) (fun t => t.reg 0 == 0xFF && t.reg 15 == 0) = true := by decide
/-- V-AL12 and V-AL13. -/
theorem test_addReg_alias :
    okWith (step (place 0x8F14 (withRegs [0, 0x20] 0x10))) (fun t => t.reg 15 == 0x30) = true ∧
    okWith (step (place 0x80F4 (withRegs [0xF0] 0x20))) (fun t => t.reg 0 == 0x10 && t.reg 15 == 1) = true := by decide
/-- L1-3 and V-AL15. -/
theorem test_sub :
    okWith (step (place 0x8015 (withRegs [5, 10] 0))) (fun t => t.reg 0 == 251 && t.reg 15 == 0) = true ∧
    okWith (step (place 0x8015 (withRegs [5, 5] 1))) (fun t => t.reg 0 == 0 && t.reg 15 == 0) = true := by decide
/-- V-AL16 and V-AL17. -/
theorem test_sub_alias :
    (subUnder .latched 15 1 (withRegs [0, 3] 10)).reg 15 = 0x07 ∧
    (subUnder .sequential 15 1 (withRegs [0, 3] 10)).reg 15 = 0xFE ∧
    (subUnder .latched 0 15 (withRegs [10] 3)).reg 0 = 0x07 ∧
    (subUnder .sequential 0 15 (withRegs [10] 3)).reg 0 = 0x09 := by decide
/-- V-AL20. -/
theorem test_shr :
    okWith (step (place 0x8016 (withRegs [0x81, 0xFF] 0))) (fun t => t.reg 0 == 0x40 && t.reg 15 == 1) = true := by decide
/-- V-AL22. -/
theorem test_shr_alias :
    (shrUnder .latched 15 (withRegs [] 3)).reg 15 = 1 ∧ (shrUnder .sequential 15 (withRegs [] 3)).reg 15 = 0 := by decide
/-- V-AL24. -/
theorem test_subn :
    okWith (step (place 0x8127 (withRegs [0, 10, 5] 1))) (fun t => t.reg 1 == 0xFB && t.reg 15 == 0) = true := by decide
/-- V-AL26 and V-AL27. -/
theorem test_subn_alias :
    (subnUnder .latched 15 1 (withRegs [0, 10] 3)).reg 15 = 0x07 ∧
    (subnUnder .sequential 15 1 (withRegs [0, 10] 3)).reg 15 = 0x09 ∧
    (subnUnder .latched 0 15 (withRegs [3] 10)).reg 0 = 0x07 ∧
    (subnUnder .sequential 0 15 (withRegs [3] 10)).reg 0 = 0xFE := by decide
/-- V-AL30. -/
theorem test_shl :
    okWith (step (place 0x810E (withRegs [0, 0x80] 0))) (fun t => t.reg 1 == 0 && t.reg 15 == 1) = true := by decide
/-- V-AL32. -/
theorem test_shl_alias :
    (shlUnder .latched 15 (withRegs [] 0xC0)).reg 15 = 0x80 ∧ (shlUnder .sequential 15 (withRegs [] 0xC0)).reg 15 = 2 := by decide
/-- V-AL33 and V-AL35, with the draw given. -/
theorem test_rnd : (rndWith 0xA5 3 0x0F State.reset).reg 3 = 0x05 ∧ (rndWith 0x3C 3 0xFF State.reset).reg 3 = 0x3C := by decide

/-- V-IM1. -/
theorem test_ldI : okWith (step (place 0xA2F0 State.reset)) (fun t => t.i == 0x2F0) = true := by decide
/-- V-IM3 and V-IM4. -/
theorem test_addI :
    okWith (step (place 0xF01E { withRegs [1] 0 with i := 0x0FFF })) (fun t => t.i == 0x1000 && t.reg 15 == 0) = true ∧
    okWith (step (place 0xF01E { withRegs [1] 0 with i := 0xFFFF })) (fun t => t.i == 0) = true := by decide
/-- V-IM5 and V-IM8. -/
theorem test_ldF :
    okWith (step (place 0xFA29 (State.reset.setReg 10 10))) (fun t => t.i == 0x032) = true ∧
    okWith (step (place 0xFA29 (State.reset.setReg 10 0xFF))) (fun t => t.i == 0x4FB) = true := by decide
/-- V-IM9 and V-IM10: 156, and 123 at the end of memory. -/
theorem test_ldB :
    okWith (step (place 0xF733 { State.reset.setReg 7 156 with i := 0x300 }))
      (fun t => t.mem.get 0x300 == 1 && t.mem.get 0x301 == 5 && t.mem.get 0x302 == 6) = true ∧
    okWith (step (place 0xF033 { withRegs [123] 0 with i := 0xFFD }))
      (fun t => t.mem.get 0xFFD == 1 && t.mem.get 0xFFE == 2 && t.mem.get 0xFFF == 3) = true := by decide
/-- V-IM11. -/
theorem test_ldB_faults : faultsWith (step (place 0xF033 { State.reset with i := 0xFFE })) .memoryOutOfRange = true := by decide
/-- V-IM12. -/
theorem test_storeRegs :
    okWith (step (place 0xF255 { withRegs [1, 2, 3, 4] 0 with i := 0x400 }))
      (fun t => t.mem.get 0x400 == 1 && t.mem.get 0x401 == 2 && t.mem.get 0x402 == 3 && t.mem.get 0x403 == 0 &&
        t.i == 0x400) = true := by decide
/-- V-IM15. -/
theorem test_storeRegs_faults : faultsWith (step (place 0xFF55 { State.reset with i := 0xFF1 })) .memoryOutOfRange = true := by decide
/-- V-IM17. -/
theorem test_loadRegs :
    okWith (step (place 0xF165 { withRegs [0, 0, 7] 0 with i := 0xFFE, mem := [(0xFFE, 0xAB), (0xFFF, 0xCD)] }))
      (fun t => t.reg 0 == 0xAB && t.reg 1 == 0xCD && t.reg 2 == 7 && t.i == 0xFFE) = true := by decide
/-- V-IM18. -/
theorem test_loadRegs_faults : faultsWith (step (place 0xF265 { State.reset with i := 0xFFE })) .memoryOutOfRange = true := by decide
/-- V-TM4. -/
theorem test_ldVxDt :
    okWith (step (place 0xF107 { State.reset with timer := 3 })) (fun t => t.reg 1 == 3 && t.timer == 2) = true := by decide
/-- V-TM1 and V-TM3. -/
theorem test_ldDtVx :
    okWith (step (place 0xF015 (withRegs [3] 0))) (fun t => t.timer == 2) = true ∧
    okWith (step (place 0xF015 { State.reset with timer := 9 })) (fun t => t.timer == 0) = true := by decide

/-- V-LD3 to V-LD6. -/
theorem test_load :
    (transact fontVector State.reset (.load [1, 2] 0xFFE)).2 = .ok ∧
    transact fontVector State.reset (.load [1, 2, 3] 0xFFE) = (State.reset, .fault .imageTooLarge) ∧
    transact fontVector State.reset (.load [] 0x1000) = (State.reset, .ok) ∧
    (transact fontVector State.reset (.load [0xAA] 0)).1.mem.get 0 = 0xAA := by decide
/-- V-LD7 and V-LD8. -/
theorem test_reset_wipes :
    (transactAll fontVector { State.reset with timer := 5 } [.load [1, 2], .reset none]).1 = State.reset := by decide
/-- R6, R138: a reset installs the FONT of the machine, whatever it is. -/
theorem test_reset_keeps_font (fontBytes : Vector Byte 80) (s : State) :
    (transact fontBytes s (.reset none)).1.mem.get 0x04F = fontBytes[0x04F] ∧
    (transact fontBytes s (.reset none)).1.mem.get 0x050 = 0 :=
  ⟨State.resetWith_get fontBytes 0x04F, State.resetWith_get fontBytes 0x050⟩
/-- R118. -/
theorem test_fault_codes :
    [Fault.memoryOutOfRange, .stackOverflow, .stackUnderflow, .imageTooLarge, .illegalOpcode].map Fault.code =
      [1, 2, 3, 4, 5] := by decide

/-! ## Witnesses: states and operands that meet a statement's hypotheses, each clause at a boundary -/

theorem witness_GroupsSelectInstructions :
    ([0x00E0, 0x1FFF, 0x2000, 0x3000, 0x4FFF, 0x5FF0, 0x6000, 0x7FFF, 0x8FF8, 0x9FF1, 0xA000, 0xBFFF, 0xC000, 0xDFFF, 0xE000,
      0xFFFF] : List Word).map (fun w => (fieldOp w).val) = List.range 16 ∧
    ([0x8000, 0x8FF1, 0x8002, 0x8FF3, 0x8004, 0x8FF5, 0x8006, 0x8FF7, 0x8008, 0x8FF9, 0x800A, 0x8FFB, 0x800C, 0x8FFD, 0x800E,
      0x8FFF] : List Word).map (fun w => (fieldN w).val) = List.range 16 ∧
    ([0xF007, 0xFF15, 0xF01E, 0xFF29, 0xF033, 0xFF55, 0xF065, 0xF000] : List Word).map (fun w => (fieldKk w).toNat) =
      [0x07, 0x15, 0x1E, 0x29, 0x33, 0x55, 0x65, 0x00] ∧
    ∃ r ∈ opcodeMap, r.matchesWord 0xDFFF = true := by decide
theorem witness_OpcodeMapSelectsTheRow :
    decode 0xFF65 = .ok (.loadRegs 15) ∧ decode 0xFF66 = .error .groupF := by decide
theorem witness_StepIsFetchDecodeExecuteTick :
    0xFFF ≤ (0xFFF : Word).toNat ∧
    decode (place 0x00EE { State.reset with pc := 0xFFE }).wordAtPc = .ok .ret ∧
    decode (place 0x0000 { State.reset with pc := 0xFFE }).wordAtPc = .error .group0 ∧ (0xFFE : Word).toNat < 0xFFF ∧
    faultsWith (step (place 0x00EE { State.reset with pc := 0xFFE })) .stackUnderflow = true := by decide
theorem witness_FetchReadsTwoBytes :
    ({ State.reset with pc := 0xFFE } : State).pc.toNat < 0xFFF ∧
    0xFFF ≤ ({ State.reset with pc := 0xFFF } : State).pc.toNat := by decide
theorem witness_TimerCountsSteps :
    (∃ t, step (place 0xF015 (withRegs [1] 0)) = .next t ∧ t.timer = 0) ∧
    (place 0xF015 (withRegs [1] 0)).nextInstr = some (.ldDtVx 0) ∧
    (∃ t, step (place 0xF107 { State.reset with timer := 1 }) = .next t ∧ t.reg 1 = 1 ∧ t.timer = 0) ∧
    (place 0xF107 { State.reset with timer := 1 }).nextInstr = some (.ldVxDt 1) :=
  ⟨⟨_, rfl, by decide⟩, by decide, ⟨_, rfl, by decide⟩, by decide⟩
theorem witness_FaultsExactlyWhen :
    ({ State.reset with sp := 16 } : State).sp.toNat ≤ 16 ∧
    instrFaults { State.reset with sp := 16 } (.call 0) .stackOverflow ∧ instrFaults State.reset .ret .stackUnderflow ∧
    instrFaults { State.reset with i := 0xFFF } (.drw 0 0 2) .memoryOutOfRange ∧
    instrFaults { State.reset with i := 0xFFE } (.ldB 0) .memoryOutOfRange ∧
    instrFaults { State.reset with i := 0xFF1 } (.storeRegs 15) .memoryOutOfRange ∧
    instrFaults { State.reset with i := 0xFF1 } (.loadRegs 15) .memoryOutOfRange ∧
    State.reset.load [0] 4096 = .error .imageTooLarge ∧
    faultsWith (stepUnder .fault (place 0x0001 State.reset)) .illegalOpcode = true := by
  simp only [instrFaults]; decide
/-- For StepKeepsInvariant and TransactionsKeepInvariant: the highest sp and the last address. -/
theorem witness_Invariant :
    ({ State.reset with sp := 16, mem := [(0xFFF, 1)] } : State).Inv ∧
    ∃ t, step (place 0x00EE { State.reset with sp := 16 }) = .next t ∧ t.sp = 15 := ⟨⟨by decide, by decide⟩, _, rfl, by decide⟩
theorem witness_DrawsMatterToRndOnly : (place 0x00E0 State.reset).nextInstr = some .cls := by decide
theorem witness_PartsChangeOnlyByTheirInstructions :
    ∃ t, step (place 0x6001 State.reset) = .next t ∧ (place 0x6001 State.reset).nextInstr = some (.ldImm 0 1) ∧
      (Instr.ldImm 0 1).setsAddr = false ∧ (Instr.ldImm 0 1).setsStack = false ∧ (Instr.ldImm 0 1).setsDisplay = false ∧
      (Instr.ldImm 0 1).storesBytes = false ∧ (Instr.ldImm 0 1).setsPc = false ∧ (Instr.ldImm 0 1).drawsByte = false :=
  ⟨_, rfl, by decide⟩
theorem witness_SelfJumpIdles : (place 0x1FFE { State.reset with pc := 0xFFE }).atIdleLoop = true := by decide
theorem witness_BootRunsTheFirstWord :
    (List.replicate 3582 (0 : Byte)).length + 2 ≤ 3584 ∧ decode (wordOfBytes 0x12 0x00) = .ok (.jp 0x200) :=
  ⟨by rw [List.length_replicate], by decide⟩
theorem witness_PlacedWordIsFetched : ({ State.reset with pc := 0xFFE } : State).pc.toNat < 0xFFF := by decide
theorem witness_FrameOneRegister :
    (∃ t, exec (.ldImm 15 1) State.reset = .next t) ∧ (∃ t, exec (.addImm 15 1) State.reset = .next t) ∧
    (∃ t, exec (.ldReg 0 15) State.reset = .next t) ∧ (∃ t, exec (.or 0 0) State.reset = .next t) ∧
    (∃ t, exec (.and 0 15) State.reset = .next t) ∧ (∃ t, exec (.xor 15 15) State.reset = .next t) ∧
    (∃ t, exec (.ldVxDt 15) State.reset = .next t) :=
  ⟨⟨_, rfl⟩, ⟨_, rfl⟩, ⟨_, rfl⟩, ⟨_, rfl⟩, ⟨_, rfl⟩, ⟨_, rfl⟩, ⟨_, rfl⟩⟩
theorem witness_FrameRegisterAndFlag :
    (∃ t, exec (.addReg 15 0) State.reset = .next t) ∧ (∃ t, exec (.sub 0 15) State.reset = .next t) ∧
    (∃ t, exec (.shr 15 0) State.reset = .next t) ∧ (∃ t, exec (.subn 0 0) State.reset = .next t) ∧
    (∃ t, exec (.shl 0 15) State.reset = .next t) :=
  ⟨⟨_, rfl⟩, ⟨_, rfl⟩, ⟨_, rfl⟩, ⟨_, rfl⟩, ⟨_, rfl⟩⟩
theorem witness_FrameControlFlow :
    (∃ t, exec (.jp 0xFFF) State.reset = .next t) ∧ (∃ t, exec (.jpV0 0xFFF) State.reset = .next t) ∧
    (∃ t, exec (.seImm 15 0) State.reset = .next t) ∧ (∃ t, exec (.sneImm 15 0) State.reset = .next t) ∧
    (∃ t, exec (.seReg 0 15) State.reset = .next t) ∧ (∃ t, exec (.sneReg 0 0) State.reset = .next t) ∧
    (∃ t, exec (.call 0xFFF) { State.reset with sp := 15 } = .next t) ∧
    (∃ t, exec .ret { State.reset with sp := 16 } = .next t) :=
  ⟨⟨_, rfl⟩, ⟨_, rfl⟩, ⟨_, rfl⟩, ⟨_, rfl⟩, ⟨_, rfl⟩, ⟨_, rfl⟩, ⟨_, rfl⟩, ⟨_, rfl⟩⟩
theorem witness_FrameAddressTimerRandom :
    (∃ t, exec (.ldI 0xFFF) State.reset = .next t) ∧ (∃ t, exec (.addI 15) State.reset = .next t) ∧
    (∃ t, exec (.ldF 15) State.reset = .next t) ∧ (∃ t, exec (.ldDtVx 15) State.reset = .next t) ∧
    (∃ t, exec (.rnd 15 0xFF) State.reset = .next t) :=
  ⟨⟨_, rfl⟩, ⟨_, rfl⟩, ⟨_, rfl⟩, ⟨_, rfl⟩, ⟨_, rfl⟩⟩
theorem witness_FrameMemoryInstructions :
    (∃ t, exec (.ldB 15) { State.reset with i := 0xFFD } = .next t) ∧
    (∃ t, exec (.storeRegs 15) { State.reset with i := 0xFF0 } = .next t) ∧
    (∃ t, exec (.loadRegs 15) { State.reset with i := 0xFF0 } = .next t) :=
  ⟨⟨_, rfl⟩, ⟨_, rfl⟩, ⟨_, rfl⟩⟩
theorem witness_FrameDisplay :
    (∃ t, exec .cls State.reset = .next t) ∧ (∃ t, exec (.drw 15 15 15) { State.reset with i := 0xFF1 } = .next t) :=
  ⟨⟨_, rfl⟩, ⟨_, rfl⟩⟩
theorem witness_CanonicalMemoryIsUnique :
    Memory.wf [(0, 1), (0xFFF, 2)] = true ∧ Memory.wf (Memory.setBytes [] 0 [1]) = true ∧
    Memory.wf [(0x300, 0)] = false ∧ Memory.wf [(0x1000, 1)] = false ∧ Memory.wf [(2, 1), (1, 1)] = false := by decide
theorem witness_AccessIsRangeChecked :
    State.reset.memRead 4096 = .error .memoryOutOfRange ∧ State.reset.memRead 4095 = .ok 0 := by decide
theorem witness_StoresReachTheNextFetch :
    (0xFFE : Word).toNat < 0xFFF ∧ (0xFFE : Word).toNat = (0xFFD : Word).toNat + 1 ∧ 1 < (bcdDigits 255).length ∧
    (0xFFC : Word).toNat + 1 = (0xFFD : Word).toNat + 0 ∧ (2 : Reg) ≤ 2 ∧
    (∃ t, exec (.ldB 0) { withRegs [255] 0 with i := 0xFFD } = .next t) ∧
    (∃ t, exec (.storeRegs 2) { withRegs [1, 2, 3] 0 with i := 0xFFD } = .next t) :=
  ⟨by decide, by decide, by decide, by decide, by decide, ⟨_, rfl⟩, ⟨_, rfl⟩⟩
theorem witness_NewAndResetReachTheResetState : fontVector.toList = font := by decide
theorem witness_LoadIsAllOrNothing :
    4095 + ([1] : List Byte).length ≤ 4096 ∧ 4096 + ([1] : List Byte).length > 4096 ∧
    4096 + ([] : List Byte).length ≤ 4096 := by decide
/-- For the results of one register and of register and flag (LdImm, AddImm, LdReg, AndXor, Or, AddReg, Subtract, Shifts):
a destination other than VF, and a register that is neither. -/
theorem witness_FlagForms : (14 : Reg) ≠ Reg.VF ∧ (0 : Reg) ≠ Reg.VF ∧ (0 : Reg) ≠ 14 := by decide
theorem witness_AliasTableOfVF : aliasMode = aliasMode ∧ (15 : Reg) = Reg.VF ∧ (14 : Reg) ≠ Reg.VF := ⟨rfl, rfl, by decide⟩
theorem witness_RndMasksADraw : (0xFE : Byte).getLsbD 0 = false ∧ (1 : Reg) ≠ 0 := by decide
theorem witness_CallPushesAndJumps :
    ({ State.reset with sp := 15 } : State).sp.toNat < 16 ∧ ({ State.reset with sp := 16 } : State).sp.toNat ≥ 16 := by decide
theorem witness_RetPopsIntoPc :
    ({ State.reset with sp := 1 } : State).sp.toNat = (0 : Fin 16).val + 1 ∧
    ({ State.reset with sp := 16 } : State).sp.toNat = (15 : Fin 16).val + 1 ∧ State.reset.sp = 0 := by decide
theorem witness_RetUndoesCall :
    ∃ t, exec (.call 0x300) { State.reset with sp := 15 } = .next t ∧
      ({ t with pc := 0x302 } : State).sp = t.sp ∧ ({ t with pc := 0x302 } : State).stack = t.stack := ⟨_, rfl, rfl, rfl⟩
/-- For JpSetsPc, SkipsPassOverTwoBytes, RetPopsIntoPc and JpV0AddsTheOffset: a target out of range. -/
theorem witness_FaultsLateOutside :
    ∃ t, exec (.jp 0xFFF) State.reset = .next t ∧ 0xFFF ≤ t.pc.toNat := ⟨_, rfl, by decide⟩
theorem witness_LdBStoresDecimalDigits : (0xFFD : Word).toNat + 2 < 4096 ∧ (0xFFE : Word).toNat + 2 ≥ 4096 := by decide
/-- For StoreRegsWritesTheBlock and LoadRegsReadsTheBlock. -/
theorem witness_BlockTransfers :
    (0xFF0 : Word).toNat + (15 : Reg).val < 4096 ∧ (0xFF1 : Word).toNat + (15 : Reg).val ≥ 4096 ∧
    (0xFFF : Word).toNat + (0 : Reg).val < 4096 ∧ (15 : Reg) ≤ 15 := by decide
theorem witness_DrwTogglesTheWrappedSprite :
    (0 : Fin 16).val = 0 ∧ (0xFF1 : Word).toNat + (15 : Fin 16).val ≤ 4096 ∧
    (1 ≤ (15 : Fin 16).val ∧ (0xFF2 : Word).toNat + (15 : Fin 16).val - 1 ≥ 4096) := by decide
theorem witness_DrwReportsCollision :
    (∃ t, exec (.drw 0 0 15) { State.reset with i := 0xFF1 } = .next t) ∧
    (∃ t, exec (.drw 15 15 0) { State.reset with i := 0xFFFF } = .next t) := ⟨⟨_, rfl⟩, ⟨_, rfl⟩⟩
theorem witness_DrwTwiceRestoresTheDisplay :
    (0 : Reg) ≠ Reg.VF ∧ (14 : Reg) ≠ Reg.VF ∧ ∃ t, exec (.drw 0 14 1) { State.reset with i := 0x300, mem := [(0x300, 0xFF)] } = .next t :=
  ⟨by decide, by decide, _, rfl⟩

end Sys2Proof.Tests
end

section
/-! PROOFS. The outcomes of a step and of a load (spec 00_scope.md R13). -/

namespace Sys2Proof.Machine

/-- The two outcomes R13 allows: Ok with a next state, or a fault. -/
def EndsOkOrFault (r : Result) : Prop := (∃ t, r = .next t) ∨ (∃ f, r = .fault f)

theorem EndsOkOrFault.next (t : State) : EndsOkOrFault (.next t) := .inl ⟨t, rfl⟩

theorem EndsOkOrFault.fault (f : Fault) : EndsOkOrFault (.fault f) := .inr ⟨f, rfl⟩

theorem EndsOkOrFault.commit (e : Except Fault State) : EndsOkOrFault (commit e) := by
  cases e with
  | ok t => exact .next t
  | error f => exact .fault f

theorem EndsOkOrFault.finishStep {r : Result} (h : EndsOkOrFault r) : EndsOkOrFault (finishStep r) := by
  obtain ⟨t, rfl⟩ | ⟨f, rfl⟩ := h
  · exact .next t.tick
  · exact .fault f

/-- The outcomes of 00EE, by the pop. -/
theorem execRet_cases (s : State) :
    (s.sp = 0 ∧ execRet s = .fault .stackUnderflow) ∨
    (∃ h : s.sp.toNat - 1 < 16, s.sp ≠ 0 ∧
      execRet s = .next ({ s with sp := s.sp - 1 }.setPc (s.slot ⟨s.sp.toNat - 1, h⟩))) ∨
    (16 < s.sp.toNat ∧ execRet s = .fault .stackOverflow) := by
  obtain ⟨h0, hp⟩ | ⟨h, h0, hp⟩ | ⟨h, hp⟩ := s.pop_cases
  · exact .inl ⟨h0, by rw [execRet, hp]⟩
  · exact .inr (.inl ⟨h, h0, by rw [execRet, hp]⟩)
  · exact .inr (.inr ⟨h, by rw [execRet, hp]⟩)

theorem execRet_endsOkOrFault (s : State) : EndsOkOrFault (execRet s) := by
  obtain ⟨-, h⟩ | ⟨_, -, h⟩ | ⟨-, h⟩ := execRet_cases s
  · exact .inr ⟨_, h⟩
  · exact .inl ⟨_, h⟩
  · exact .inr ⟨_, h⟩

theorem execCall_endsOkOrFault (nnn : Addr12) (s : State) : EndsOkOrFault (execCall nnn s) := by
  rw [execCall_eq]
  split
  · exact .next _
  · exact .fault _

theorem drawUnder_endsOkOrFault (mode : Config.VfAliasMode) (x y : Reg) (n : Fin 16) (s : State) :
    EndsOkOrFault (drawUnder mode x y n s) := by
  rw [drawUnder_eq]
  split
  · exact .next _
  · exact .fault _

theorem execLoadRegs_endsOkOrFault (x : Reg) (s : State) : EndsOkOrFault (execLoadRegs x s) := by
  rw [execLoadRegs_eq]
  split
  · exact .next _
  · exact .fault _

/-- No instruction is refused: six can fault, and every other one always ends in a next state. -/
theorem exec_endsOkOrFault (i : Instr) (s : State) : EndsOkOrFault (exec i s) := by
  cases i with
  | ret => exact execRet_endsOkOrFault s
  | call nnn => exact execCall_endsOkOrFault nnn s
  | drw x y n => exact drawUnder_endsOkOrFault aliasMode x y n s
  | ldB x => exact .commit _
  | storeRegs x => exact .commit _
  | loadRegs x => exact execLoadRegs_endsOkOrFault x s
  | _ => exact .next _

theorem step_endsOkOrFault (s : State) : EndsOkOrFault (step s) := by
  obtain ⟨-, -, h⟩ | ⟨i, -, h⟩ | ⟨_, -, -, -, h⟩ := step_cases s
  · exact h ▸ .fault _
  · exact h ▸ (exec_endsOkOrFault i s.advancePc).finishStep
  · exact h ▸ .next _

theorem State.load_ok_or_imageTooLarge (s : State) (bytes : List Byte) (base : Nat) :
    (∃ t, s.load bytes base = .ok t) ∨ s.load bytes base = .error .imageTooLarge := by
  rcases Nat.lt_or_ge 4096 (base + bytes.length) with h | h
  · exact .inr (State.load_too_large h)
  · exact .inl ⟨_, State.load_fits h⟩

/-- Settles O11: every way a step can end (`step_cases`) is a next state or a fault, as no instruction is refused. -/
theorem stepEndsOkOrFault : Obligations.StepEndsOkOrFault :=
  ⟨step_endsOkOrFault, State.load_ok_or_imageTooLarge⟩

end Sys2Proof.Machine
end

section
/-! PROOFS. The range check of a byte access (spec 20_memory.md R40). -/

namespace Sys2Proof.Machine

/-- A read at c looks at the byte memory holds at c and at nothing else. -/
theorem State.memRead_congr {s t : State} {c : Nat} (h : t.mem.get c = s.mem.get c) : t.memRead c = s.memRead c := by
  rcases Nat.lt_or_ge c 4096 with hc | hc
  · rw [State.memRead_in hc, State.memRead_in hc, h]
  · rw [State.memRead_out hc, State.memRead_out hc]

/-- A write in range answers a state that reads the written byte at a and what it read before at every other address,
in range or not. -/
theorem State.memWrite_reads (s : State) {a : Nat} (b : Byte) (ha : a < 4096) :
    ∃ t, s.memWrite a b = .ok t ∧ t.memRead a = .ok b ∧ ∀ c, c ≠ a → t.memRead c = s.memRead c := by
  refine ⟨_, State.memWrite_in b ha, ?_, fun c hc => ?_⟩
  · rw [State.memRead_in ha, Memory.get_set_same]
  · exact State.memRead_congr (Memory.get_set_other s.mem b hc)

/-- Settles O27, from the two accesses outside the range and inside it. -/
theorem accessIsRangeChecked : Obligations.AccessIsRangeChecked := by
  intro s a b
  constructor
  · intro ha
    exact ⟨State.memRead_out ha, State.memWrite_out b ha⟩
  · intro ha
    exact ⟨State.memRead_in ha, State.memWrite_reads s b ha⟩

end Sys2Proof.Machine
end

section
/-! PROOFS. The fields of a word, and the selection of an instruction by group and sub-field
(spec 30_encoding.md R54, R58 to R63). -/

namespace Sys2Proof

/-! ## The fields as bit ranges (R54) -/

/-- op is the top nibble, so dividing alone gives it. -/
theorem fieldOp_val_eq_div (w : Word) : (fieldOp w).val = w.toNat / 4096 := by
  have := w.isLt
  rw [fieldOp_val]
  omega

/-- Settles O2: every field but op is the arithmetic its own lemma states, and op needs no reduction modulo 16. -/
theorem fieldsAreBitRanges : Obligations.FieldsAreBitRanges := fun w =>
  ⟨fieldOp_val_eq_div w, fieldX_val w, fieldY_val w, fieldN_val w, fieldKk_toNat w, fieldNnn_toNat w⟩

/-! ## Selection by op (R58) -/

section
variable {w : Word}

theorem decode_op0 (h : (fieldOp w).val = 0x0) :
    decode w = if w = 0x00E0 then .ok .cls else if w = 0x00EE then .ok .ret else .error .group0 := by
  simp only [decode, h]

theorem decode_op1 (h : (fieldOp w).val = 0x1) : decode w = .ok (.jp (fieldNnn w)) := by
  simp only [decode, h]

theorem decode_op2 (h : (fieldOp w).val = 0x2) : decode w = .ok (.call (fieldNnn w)) := by
  simp only [decode, h]

theorem decode_op3 (h : (fieldOp w).val = 0x3) : decode w = .ok (.seImm (fieldX w) (fieldKk w)) := by
  simp only [decode, h]

theorem decode_op4 (h : (fieldOp w).val = 0x4) : decode w = .ok (.sneImm (fieldX w) (fieldKk w)) := by
  simp only [decode, h]

theorem decode_op5 (h : (fieldOp w).val = 0x5) :
    decode w = if (fieldN w).val = 0 then .ok (.seReg (fieldX w) (fieldY w)) else .error .group5 := by
  simp only [decode, h, Fin.val_eq_zero_iff]

theorem decode_op6 (h : (fieldOp w).val = 0x6) : decode w = .ok (.ldImm (fieldX w) (fieldKk w)) := by
  simp only [decode, h]

theorem decode_op7 (h : (fieldOp w).val = 0x7) : decode w = .ok (.addImm (fieldX w) (fieldKk w)) := by
  simp only [decode, h]

theorem decode_op8 (h : (fieldOp w).val = 0x8) : decode w = decode8 (fieldX w) (fieldY w) (fieldN w) := by
  simp only [decode, h]

theorem decode_op9 (h : (fieldOp w).val = 0x9) :
    decode w = if (fieldN w).val = 0 then .ok (.sneReg (fieldX w) (fieldY w)) else .error .group9 := by
  simp only [decode, h, Fin.val_eq_zero_iff]

theorem decode_opA (h : (fieldOp w).val = 0xA) : decode w = .ok (.ldI (fieldNnn w)) := by
  simp only [decode, h]

theorem decode_opB (h : (fieldOp w).val = 0xB) : decode w = .ok (.jpV0 (fieldNnn w)) := by
  simp only [decode, h]

theorem decode_opC (h : (fieldOp w).val = 0xC) : decode w = .ok (.rnd (fieldX w) (fieldKk w)) := by
  simp only [decode, h]

theorem decode_opD (h : (fieldOp w).val = 0xD) : decode w = .ok (.drw (fieldX w) (fieldY w) (fieldN w)) := by
  simp only [decode, h]

theorem decode_opE (h : (fieldOp w).val = 0xE) : decode w = .error .groupE := by
  simp only [decode, h]

theorem decode_opF (h : (fieldOp w).val = 0xF) : decode w = decodeF (fieldX w) (fieldKk w) := by
  simp only [decode, h]

end

/-! ## Selection by sub-field in groups 8 and F (R61, R63) -/

/-- By the arms of `decode8`: each arm's n makes one clause's premise true and the others' false. -/
theorem decode8_selects (x y : Reg) (n : Fin 16) :
    (n.val = 0x0 → decode8 x y n = .ok (.ldReg x y)) ∧ (n.val = 0x1 → decode8 x y n = .ok (.or x y)) ∧
    (n.val = 0x2 → decode8 x y n = .ok (.and x y)) ∧ (n.val = 0x3 → decode8 x y n = .ok (.xor x y)) ∧
    (n.val = 0x4 → decode8 x y n = .ok (.addReg x y)) ∧ (n.val = 0x5 → decode8 x y n = .ok (.sub x y)) ∧
    (n.val = 0x6 → decode8 x y n = .ok (.shr x y)) ∧ (n.val = 0x7 → decode8 x y n = .ok (.subn x y)) ∧
    (n.val = 0xE → decode8 x y n = .ok (.shl x y)) ∧
    (n.val ∈ [0x8, 0x9, 0xA, 0xB, 0xC, 0xD, 0xF] → decode8 x y n = .error .group8) := by
  unfold decode8
  split <;> simp_all

/-- By the arms of `decodeF`: each arm's kk makes one clause's premise true and the others' false. -/
theorem decodeF_selects (x : Reg) (kk : Byte) :
    (kk.toNat = 0x07 → decodeF x kk = .ok (.ldVxDt x)) ∧ (kk.toNat = 0x15 → decodeF x kk = .ok (.ldDtVx x)) ∧
    (kk.toNat = 0x1E → decodeF x kk = .ok (.addI x)) ∧ (kk.toNat = 0x29 → decodeF x kk = .ok (.ldF x)) ∧
    (kk.toNat = 0x33 → decodeF x kk = .ok (.ldB x)) ∧ (kk.toNat = 0x55 → decodeF x kk = .ok (.storeRegs x)) ∧
    (kk.toNat = 0x65 → decodeF x kk = .ok (.loadRegs x)) ∧
    (kk.toNat ∉ [0x07, 0x15, 0x1E, 0x29, 0x33, 0x55, 0x65] → decodeF x kk = .error .groupF) := by
  unfold decodeF
  split <;> simp_all

/-! ## No two rows match one word (R58, R64) -/

/-- The patterns of two rows agree on the bits both masks fix. -/
def OpcodeRow.Compatible (r r' : OpcodeRow) : Prop := r.pattern &&& r'.mask = r'.pattern &&& r.mask

theorem OpcodeRow.matchesWord_iff {r : OpcodeRow} {w : Word} : r.matchesWord w = true ↔ w &&& r.mask = r.pattern :=
  beq_iff_eq

/-- Rows that match one word are compatible: both patterns show that word's bits under both masks. -/
theorem OpcodeRow.compatible_of_matchesWord {r r' : OpcodeRow} {w : Word} (h : r.matchesWord w = true)
    (h' : r'.matchesWord w = true) : r.Compatible r' :=
  calc r.pattern &&& r'.mask
    _ = w &&& r.mask &&& r'.mask := by rw [matchesWord_iff.mp h]
    _ = w &&& r'.mask &&& r.mask := by rw [BitVec.and_assoc, BitVec.and_comm r.mask, ← BitVec.and_assoc]
    _ = r'.pattern &&& r.mask := by rw [matchesWord_iff.mp h']

/-- Two different rows of the map differ in a bit both masks fix: a finite check over the pairs of rows. -/
theorem opcodeMap_eq_of_compatible : ∀ r ∈ opcodeMap, ∀ r' ∈ opcodeMap, r.Compatible r' → r = r' := by
  unfold OpcodeRow.Compatible
  decide

theorem opcodeMap_eq_of_matchesWord {r r' : OpcodeRow} {w : Word} (hr : r ∈ opcodeMap) (hr' : r' ∈ opcodeMap)
    (h : r.matchesWord w = true) (h' : r'.matchesWord w = true) : r = r' :=
  opcodeMap_eq_of_compatible r hr r' hr' (OpcodeRow.compatible_of_matchesWord h h')

/-- Settles O3, group by group: op selects the instruction, or the sub-table of group 8 or F. -/
theorem groupsSelectInstructions : Obligations.GroupsSelectInstructions := by
  refine ⟨fun r hr r' hr' w => opcodeMap_eq_of_matchesWord hr hr', fun w => ⟨decode_op0, decode_op1, decode_op2,
    decode_op3, decode_op4, decode_op5, decode_op6, decode_op7, fun h8 => ?_, decode_op9, decode_opA, decode_opB,
    decode_opC, decode_opD, decode_opE, fun hF => ?_⟩⟩
  · rw [decode_op8 h8]
    exact decode8_selects (fieldX w) (fieldY w) (fieldN w)
  · rw [decode_opF hF]
    exact decodeF_selects (fieldX w) (fieldKk w)

end Sys2Proof
end

section
/-! PROOFS. The fetch at pc (spec 40_step_cycle.md R68). -/

namespace Sys2Proof.Machine

theorem State.fetch_in {s : State} (h : s.pc.toNat < 0xFFF) : s.fetch = .ok s.wordAtPc := by
  rw [State.fetch_wordAtPc, if_pos h]

theorem State.fetch_out {s : State} (h : 0xFFF ≤ s.pc.toNat) : s.fetch = .error .memoryOutOfRange := by
  rw [State.fetch_wordAtPc, if_neg (Nat.not_lt.mpr h)]

/-- The byte at pc is the high one (20_memory.md R37). -/
theorem State.wordAtPc_toNat (s : State) :
    s.wordAtPc.toNat = 256 * (s.mem.get s.pc.toNat).toNat + (s.mem.get (s.pc.toNat + 1)).toNat :=
  wordOfBytes_toNat _ _

/-- Settles O8: below 0xFFF the fetched word is `wordAtPc`, whose value is big-endian; from 0xFFF on the fetch faults. -/
theorem fetchReadsTwoBytes : Obligations.FetchReadsTwoBytes := fun s =>
  ⟨fun h => ⟨s.wordAtPc, State.fetch_in h, s.wordAtPc_toNat⟩, State.fetch_out⟩

end Sys2Proof.Machine
end

section
/-! PROOFS. The display after 00E0, and the collision flag of Dxyn (spec 41_display.md R79, R81). -/

namespace Sys2Proof.Machine

/-! ## 00E0 (R79) -/

theorem exec_cls (s : State) : exec .cls s = .next { s with disp := clearDisplay } := rfl

theorem State.pixelAt_of_clearDisplay {s : State} (h : s.disp = clearDisplay) (x : Fin 64) (y : Fin 32) :
    s.pixelAt x y = false := by
  simp [State.pixelAt, h, clearDisplay]

/-- Settles O56: 00E0 replaces the display by the clear one, and reads of the other fields do not look at it. -/
theorem clsClearsEveryPixel : Obligations.ClsClearsEveryPixel := fun s =>
  ⟨rfl, _, exec_cls s, State.pixelAt_of_clearDisplay rfl, fun _ => rfl, rfl, fun _ => rfl⟩

/-! ## The collision flag of Dxyn (R81) -/

theorem boolByte_eq_one_iff {b : Bool} : boolByte b = 1 ↔ b = true := by
  cases b <;> decide

theorem boolByte_eq_zero_iff {b : Bool} : boolByte b = 0 ↔ b = false := by
  cases b <;> decide

theorem exec_drw (x y : Reg) (n : Fin 16) (s : State) : exec (.drw x y n) s = drawUnder aliasMode x y n s := rfl

/-- A Dxyn that succeeds draws the n bytes at I. -/
theorem exec_drw_next {x y : Reg} {n : Fin 16} {s t : State} (h : exec (.drw x y n) s = .next t) :
    t = drawSprite aliasMode x y (s.bytesAt s.i.toNat n.val) s := by
  rw [exec_drw, drawUnder_eq] at h
  split at h
  · cases h
    rfl
  · cases h

/-- A pixel goes from set to clear exactly when it is set and the sprite covers it. -/
theorem drawSprite_clears_iff (mode : Config.VfAliasMode) (x y : Reg) {rows : List Byte} (s : State)
    (h : rows.length ≤ 32) (px : Fin 64) (py : Fin 32) :
    (s.pixelAt px py = true ∧ (drawSprite mode x y rows s).pixelAt px py = false) ↔
      (px, py) ∈ drawnPoints mode x y rows s ∧ s.pixelAt px py = true := by
  rw [(drawSprite_spec mode x y s h).1, and_comm]
  refine and_congr_left fun hset => ?_
  simp [hset]

theorem drawSprite_flag_eq_one_iff (mode : Config.VfAliasMode) (x y : Reg) {rows : List Byte} (s : State)
    (h : rows.length ≤ 32) :
    (drawSprite mode x y rows s).reg Reg.VF = 1 ↔
      ∃ px py, s.pixelAt px py = true ∧ (drawSprite mode x y rows s).pixelAt px py = false := by
  rw [(drawSprite_spec mode x y s h).2, boolByte_eq_one_iff, List.any_eq_true]
  simp only [drawSprite_clears_iff mode x y s h, Prod.exists]

/-- VF after Dxyn holds a flag and no third value. -/
theorem drawSprite_flag_eq_zero_iff (mode : Config.VfAliasMode) (x y : Reg) {rows : List Byte} (s : State)
    (h : rows.length ≤ 32) :
    (drawSprite mode x y rows s).reg Reg.VF = 0 ↔ ¬ (drawSprite mode x y rows s).reg Reg.VF = 1 := by
  rw [(drawSprite_spec mode x y s h).2, boolByte_eq_zero_iff, boolByte_eq_one_iff, Bool.not_eq_true]

/-- Settles O58: VF is 1 exactly on a set pixel under the sprite, which is a set pixel that became clear, and VF is a
flag. -/
theorem drwReportsCollision : Obligations.DrwReportsCollision := by
  intro x y n s t ht
  have hlen : (s.bytesAt s.i.toNat n.val).length ≤ 32 := by
    rw [State.bytesAt_length]
    omega
  rw [exec_drw_next ht]
  have hone := drawSprite_flag_eq_one_iff aliasMode x y s hlen
  refine ⟨hone, ?_⟩
  rw [drawSprite_flag_eq_zero_iff aliasMode x y s hlen, hone]
  simp only [not_exists, not_and, Bool.not_eq_false]

end Sys2Proof.Machine
end

section
/-! PROOFS. The control-flow instructions: jumps, skips, call and return (spec 42_control_flow.md R85 to R92). -/

namespace Sys2Proof.Machine

/-- No control-flow instruction checks its target: the fault of a pc out of range belongs to the fetch. -/
theorem State.faultsLateOutside (t : State) : t.FaultsLateOutside := State.fetch_out

theorem zextAddr_toNat (nnn : Addr12) : (zextAddr nnn).toNat = nnn.toNat :=
  BitVec.toNat_setWidth_of_le (by decide)

theorem zextByte_toNat (b : Byte) : (zextByte b).toNat = b.toNat :=
  BitVec.toNat_setWidth_of_le (by decide)

/-! ## Jumps (R86, R92) -/

theorem exec_jp (nnn : Addr12) (s : State) : exec (.jp nnn) s = .next (s.setPc (zextAddr nnn)) := rfl

theorem exec_jpV0 (nnn : Addr12) (s : State) :
    exec (.jpV0 nnn) s = .next (s.setPc (zextAddr nnn + zextByte (s.reg Reg.V0))) := rfl

/-- The sum of a 12-bit address and a byte fits in 16 bits, so the target of Bnnn does not wrap. -/
theorem zextAddr_add_zextByte_toNat (nnn : Addr12) (b : Byte) :
    (zextAddr nnn + zextByte b).toNat = nnn.toNat + b.toNat := by
  have hn := nnn.isLt
  have hb := b.isLt
  rw [BitVec.toNat_add, zextAddr_toNat, zextByte_toNat]
  omega

theorem addr12_add_byte_le (nnn : Addr12) (b : Byte) : nnn.toNat + b.toNat ≤ 0x10FE := by
  have hn := nnn.isLt
  have hb := b.isLt
  omega

/-- Settles O44: the target is nnn zero-extended, and setting pc changes no register. -/
theorem jpSetsPc : Obligations.JpSetsPc := fun nnn s =>
  ⟨formatNNN_toNat 0x1 nnn, _, exec_jp nnn s, zextAddr_toNat nnn, State.setPc_reg s _, State.faultsLateOutside _⟩

/-- Settles O49: the 16-bit sum of nnn and V0 is exact, and setting pc changes no register. -/
theorem jpV0AddsTheOffset : Obligations.JpV0AddsTheOffset := by
  intro nnn s
  have hpc := zextAddr_add_zextByte_toNat nnn (s.reg Reg.V0)
  exact ⟨formatNNN_toNat 0xB nnn, _, exec_jpV0 nnn s, hpc, hpc.trans_le (addr12_add_byte_le nnn _),
    State.setPc_reg s _, State.faultsLateOutside _⟩

/-! ## Skips (R88 to R91) -/

theorem exec_seImm (x : Reg) (kk : Byte) (s : State) : exec (.seImm x kk) s = skipIf (s.reg x == kk) s := rfl

theorem exec_sneImm (x : Reg) (kk : Byte) (s : State) : exec (.sneImm x kk) s = skipIf (s.reg x != kk) s := rfl

theorem exec_seReg (x y : Reg) (s : State) : exec (.seReg x y) s = skipIf (s.reg x == s.reg y) s := rfl

theorem exec_sneReg (x y : Reg) (s : State) : exec (.sneReg x y) s = skipIf (s.reg x != s.reg y) s := rfl

/-- What the four skips share: `c` is the test the instruction makes, `P` the condition it stands for. -/
theorem skipIf_spec {c : Bool} {P : Prop} [Decidable P] (hc : c = true ↔ P) (s : State) :
    ∃ t, skipIf c s = .next t ∧ (∀ r, t.reg r = s.reg r) ∧ t.FaultsLateOutside ∧
      t.pc.toNat = if P then (s.pc.toNat + 2) % 65536 else s.pc.toNat := by
  rw [skipIf_eq]
  by_cases hP : P
  · rw [if_pos (hc.mpr hP), if_pos hP]
    exact ⟨_, rfl, State.advancePc_reg s, State.faultsLateOutside _, BitVec.toNat_add s.pc 2⟩
  · rw [if_neg (mt hc.mp hP), if_neg hP]
    exact ⟨s, rfl, fun _ => rfl, State.faultsLateOutside s, rfl⟩

/-- Settles O45: each skip is `skipIf` on its own test. -/
theorem skipsPassOverTwoBytes : Obligations.SkipsPassOverTwoBytes := by
  intro x y kk s
  refine ⟨formatXKK_toNat 0x3 x kk, formatXKK_toNat 0x4 x kk, formatXYN_toNat 0x5 x y 0, formatXYN_toNat 0x9 x y 0,
    ?_, ?_, ?_, ?_⟩
  · rw [exec_seImm]
    exact skipIf_spec beq_iff_eq s
  · rw [exec_sneImm]
    exact skipIf_spec bne_iff_ne s
  · rw [exec_seReg]
    exact skipIf_spec beq_iff_eq s
  · rw [exec_sneReg]
    exact skipIf_spec bne_iff_ne s

/-! ## Call (R87) -/

theorem exec_call_ok (nnn : Addr12) {s : State} (h : s.sp.toNat < 16) :
    exec (.call nnn) s =
      .next ({ s with stack := s.stack.set s.sp.toNat s.pc, sp := s.sp + 1 }.setPc (zextAddr nnn)) :=
  (execCall_eq nnn s).trans (dif_pos h)

theorem exec_call_full (nnn : Addr12) {s : State} (h : 16 ≤ s.sp.toNat) :
    exec (.call nnn) s = .fault .stackOverflow :=
  (execCall_eq nnn s).trans (dif_neg (Nat.not_lt.mpr h))

theorem sp_add_one_toNat {sp : Byte} (h : sp.toNat < 16) : (sp + 1).toNat = sp.toNat + 1 :=
  BitVec.toNat_add_of_lt (by change sp.toNat + 1 < 256; omega)

/-- Reading a stack slot after a slot write. -/
theorem State.slot_set_stack (s : State) {n : Nat} (w : Word) (h : n < 16) (j : Fin 16) :
    { s with stack := s.stack.set n w }.slot j = if j.val = n then w else s.slot j := by
  simp only [State.slot, Vector.getElem_set, eq_comm]

/-- Settles O46, from the two outcomes of 2nnn: room for one more entry, and a full stack. -/
theorem callPushesAndJumps : Obligations.CallPushesAndJumps := by
  intro nnn s
  refine ⟨formatNNN_toNat 0x2 nnn, fun h => ?_, exec_call_full nnn⟩
  exact ⟨_, exec_call_ok nnn h, zextAddr_toNat nnn, sp_add_one_toNat h, State.slot_set_stack s s.pc h, fun _ => rfl⟩

/-! ## Return (R85) -/

theorem exec_ret_ok {s : State} {j : Fin 16} (h : s.sp.toNat = j.val + 1) :
    exec .ret s = .next ({ s with sp := s.sp - 1 }.setPc (s.slot j)) := by
  have h0 : s.sp ≠ 0 := fun h0 => by simp [h0] at h
  have hj : s.sp.toNat - 1 = j.val := by omega
  have hpop := State.pop_ok h0 (hj ▸ j.isLt)
  simp only [hj] at hpop
  change execRet s = _
  rw [execRet, hpop]

theorem exec_ret_empty {s : State} (h : s.sp = 0) : exec .ret s = .fault .stackUnderflow := by
  change execRet s = _
  rw [execRet, State.pop_empty h]

/-- Settles O47, from the two outcomes of 00EE: an entry to pop, and an empty stack. -/
theorem retPopsIntoPc : Obligations.RetPopsIntoPc := by
  intro s
  refine ⟨rfl, fun j h => ?_, exec_ret_empty⟩
  have hsp : 1 ≤ s.sp := BitVec.le_def.mpr (h ▸ Nat.succ_pos j.val)
  exact ⟨_, exec_ret_ok h, rfl, BitVec.toNat_sub_of_le hsp, fun _ => rfl, fun _ => rfl, State.faultsLateOutside _⟩

end Sys2Proof.Machine
end

section
/-! PROOFS. The register and ALU instructions (spec 43_alu.md R94 to R106). -/

namespace Sys2Proof.Machine

/-! ## Results and flags of 8-bit arithmetic (R94) -/

theorem boolByte_decide (p : Prop) [Decidable p] : boolByte (decide p) = if p then 1 else 0 := by
  by_cases h : p <;> simp [h, boolByte]

theorem boolByte_toNat (b : Bool) : (boolByte b).toNat = b.toNat := by
  cases b <;> rfl

theorem addWrap_toNat (a b : Byte) : (addWrap a b).toNat = (a.toNat + b.toNat) % 256 :=
  BitVec.toNat_ofNat _ 8

/-- The difference of the model is biased by 256 to stay a natural number; modulo 256 the bias is 0. -/
theorem subWrap_toNat (a b : Byte) : ((subWrap a b).toNat : Int) = ((a.toNat : Int) - b.toNat) % 256 := by
  have hb := b.isLt
  have hsub : (subWrap a b).toNat = (a.toNat + 256 - b.toNat) % 256 := BitVec.toNat_ofNat _ 8
  omega

theorem subWrap_self (a : Byte) : subWrap a a = 0 := by
  rw [subWrap, Nat.add_sub_cancel_left]
  rfl

theorem carryFlag_eq (a b : Byte) : carryFlag a b = if a.toNat + b.toNat > 255 then 1 else 0 :=
  boolByte_decide _

theorem noBorrowFlag_eq (a b : Byte) : noBorrowFlag a b = if a.toNat > b.toNat then 1 else 0 :=
  boolByte_decide _

theorem noBorrowFlag_self (a : Byte) : noBorrowFlag a a = 0 :=
  (noBorrowFlag_eq a a).trans (if_neg (lt_irrefl _))

theorem shiftRight_toNat (a : Byte) : (shiftRight a).toNat = a.toNat / 2 := by
  rw [shiftRight, BitVec.toNat_ushiftRight, Nat.shiftRight_eq_div_pow, pow_one]

theorem shiftLeft_toNat (a : Byte) : (shiftLeft a).toNat = a.toNat * 2 % 256 := by
  rw [shiftLeft, BitVec.toNat_shiftLeft, Nat.shiftLeft_eq, pow_one]

theorem lowBitFlag_toNat (a : Byte) : (lowBitFlag a).toNat = a.toNat % 2 := by
  rw [lowBitFlag, boolByte_toNat, BitVec.getLsbD, Nat.toNat_testBit, pow_zero, Nat.div_one]

/-- Bit 7 is the top bit of a byte, so nothing is above it to take the remainder of. -/
theorem highBitFlag_toNat (a : Byte) : (highBitFlag a).toNat = a.toNat / 128 := by
  have ha := a.isLt
  rw [highBitFlag, boolByte_toNat, BitVec.getLsbD, Nat.toNat_testBit]
  omega

/-- Settles O33, one lemma per result and per flag. -/
theorem registerArithmeticWraps : Obligations.RegisterArithmeticWraps := fun a b =>
  ⟨addWrap_toNat a b, carryFlag_eq a b, subWrap_toNat a b, noBorrowFlag_eq a b, shiftRight_toNat a,
    lowBitFlag_toNat a, shiftLeft_toNat a, highBitFlag_toNat a⟩

/-! ## The words of group 8 -/

/-- The sub-opcode fills the lowest nibble alone (30_encoding.md R55, R61). -/
theorem formatXYN_group8_toNat (x y : Reg) (n : Fin 16) :
    (formatXYN 0x8 x y n).toNat = 0x8000 + n.val + 0x100 * x.val + 0x10 * y.val := by
  have h8 : (0x8 : BitVec 4).toNat = 8 := rfl
  rw [formatXYN_toNat, h8]
  omega

/-! ## Loads, the immediate add and the bitwise operations (R96 to R101): one register write -/

theorem exec_ldImm (x : Reg) (kk : Byte) (s : State) : exec (.ldImm x kk) s = .next (s.setReg x kk) := rfl

theorem exec_addImm (x : Reg) (kk : Byte) (s : State) :
    exec (.addImm x kk) s = .next (s.setReg x (addWrap (s.reg x) kk)) := rfl

theorem exec_ldReg (x y : Reg) (s : State) : exec (.ldReg x y) s = .next (s.setReg x (s.reg y)) := rfl

theorem exec_and (x y : Reg) (s : State) : exec (.and x y) s = .next (s.setReg x (s.reg x &&& s.reg y)) := rfl

theorem exec_xor (x y : Reg) (s : State) : exec (.xor x y) s = .next (s.setReg x (s.reg x ^^^ s.reg y)) := rfl

/-- Settles O34: 6xkk is one register write, of kk. -/
theorem ldImmLoadsImmediate : Obligations.LdImmLoadsImmediate := fun x kk s =>
  ⟨formatXKK_toNat 0x6 x kk, _, exec_ldImm x kk s, s.setReg_reg_same x _, fun _ => s.setReg_reg_other _⟩

/-- Settles O35: 7xkk is one register write, of the wrapped sum, so VF is kept like every register but x. -/
theorem addImmWrapsWithoutFlag : Obligations.AddImmWrapsWithoutFlag := by
  intro x kk s
  refine ⟨formatXKK_toNat 0x7 x kk, _, exec_addImm x kk s, ?_, fun _ => s.setReg_reg_other _⟩
  rw [State.setReg_reg_same, addWrap_toNat]

/-- Settles O36: 8xy0 is one register write, of the old V[y]. -/
theorem ldRegCopies : Obligations.LdRegCopies := fun x y s =>
  ⟨formatXYN_group8_toNat x y 0x0, _, exec_ldReg x y s, s.setReg_reg_same x _, fun _ => s.setReg_reg_other _⟩

/-- Settles O37: each is one register write, of the bitwise operation on the old V[x] and V[y]. -/
theorem andXorAreBitwise : Obligations.AndXorAreBitwise := by
  intro x y s
  refine ⟨formatXYN_group8_toNat x y 0x2, formatXYN_group8_toNat x y 0x3,
    ⟨_, exec_and x y s, fun _ => s.setReg_reg_other _, ?_⟩, ⟨_, exec_xor x y s, fun _ => s.setReg_reg_other _, ?_⟩⟩
  · rw [State.setReg_reg_same]
    refine ⟨fun _ => BitVec.getLsbD_and, ?_⟩
    rintro rfl
    exact BitVec.and_self
  · rw [State.setReg_reg_same]
    refine ⟨fun _ => BitVec.getLsbD_xor, ?_⟩
    rintro rfl
    exact BitVec.xor_self

/-! ## The add with carry (R102): the flag write, then the data write -/

theorem State.setFlagThenReg_reg_other (s : State) (f b : Byte) {x r : Reg} (hx : r ≠ x) (hf : r ≠ Reg.VF) :
    (s.setFlagThenReg f x b).reg r = s.reg r := by
  rw [State.setFlagThenReg_reg, if_neg hx, if_neg hf]

theorem exec_addReg (x y : Reg) (s : State) : exec (.addReg x y) s =
    .next (s.setFlagThenReg (carryFlag (s.reg x) (s.reg y)) x (addWrap (s.reg x) (s.reg y))) := rfl

/-- Settles O39: the data write comes last, so V[x] is the wrapped sum also for x = F, and the carry is lost there. -/
theorem addRegSetsCarry : Obligations.AddRegSetsCarry := by
  intro x y s
  refine ⟨formatXYN_group8_toNat x y 0x4, _, exec_addReg x y s, ?_, fun hx => ?_,
    fun _ => s.setFlagThenReg_reg_other _ _⟩
  · rw [State.setFlagThenReg_reg_same, addWrap_toNat]
  · rw [State.setFlagThenReg_flag s _ _ hx, carryFlag_eq]

/-! ## The subtractions (R103, R105): one operation with the operands in either order -/

/-- Only a read of VF sees the flag write. -/
theorem readAfterFlag_of_ne (mode : Config.VfAliasMode) {r : Reg} (before flag : Byte) (h : r ≠ Reg.VF) :
    readAfterFlag mode r before flag = before :=
  if_neg h

/-- V[x] becomes V[p] - V[q] after the flag write: 8xy5 with p = x and q = y, 8xy7 with p = y and q = x. -/
def subtractInto (mode : Config.VfAliasMode) (x p q : Reg) (s : State) : State :=
  let flag := noBorrowFlag (s.reg p) (s.reg q)
  s.setFlagThenReg flag x (subWrap (readAfterFlag mode p (s.reg p) flag) (readAfterFlag mode q (s.reg q) flag))

theorem exec_sub (x y : Reg) (s : State) : exec (.sub x y) s = .next (subtractInto aliasMode x x y s) := rfl

theorem exec_subn (x y : Reg) (s : State) : exec (.subn x y) s = .next (subtractInto aliasMode x y x s) := rfl

theorem subtractInto_flag (mode : Config.VfAliasMode) {x : Reg} (p q : Reg) (s : State) (hx : x ≠ Reg.VF) :
    (subtractInto mode x p q s).reg Reg.VF = if (s.reg p).toNat > (s.reg q).toNat then 1 else 0 :=
  (s.setFlagThenReg_flag _ _ hx).trans (noBorrowFlag_eq _ _)

theorem subtractInto_reg (mode : Config.VfAliasMode) (x : Reg) {p q : Reg} (s : State) (hp : p ≠ Reg.VF)
    (hq : q ≠ Reg.VF) : (subtractInto mode x p q s).reg x = subWrap (s.reg p) (s.reg q) := by
  rw [subtractInto, State.setFlagThenReg_reg_same, readAfterFlag_of_ne mode _ _ hp, readAfterFlag_of_ne mode _ _ hq]

/-- Equal operands are read alike under either mode, and the strict comparison fails. -/
theorem subtractInto_self (mode : Config.VfAliasMode) (x p : Reg) (s : State) :
    (subtractInto mode x p p s).reg x = 0 ∧ (subtractInto mode x p p s).reg Reg.VF = 0 := by
  simp [subtractInto, State.setFlagThenReg_reg, subWrap_self, noBorrowFlag_self]

theorem subtractInto_reg_other (mode : Config.VfAliasMode) {x r : Reg} (p q : Reg) (s : State) (hx : r ≠ x)
    (hf : r ≠ Reg.VF) : (subtractInto mode x p q s).reg r = s.reg r :=
  s.setFlagThenReg_reg_other _ _ hx hf

/-- Settles O40: 8xy5 and 8xy7 are one subtraction with the operands exchanged. -/
theorem subtractSetsNoBorrow : Obligations.SubtractSetsNoBorrow := by
  intro x y s
  refine ⟨formatXYN_group8_toNat x y 0x5, formatXYN_group8_toNat x y 0x7,
    ⟨_, exec_sub x y s, subtractInto_flag aliasMode x y s, fun hx hy => ?_, ?_,
      fun _ => subtractInto_reg_other aliasMode x y s⟩,
    ⟨_, exec_subn x y s, subtractInto_flag aliasMode y x s, fun hx hy => ?_, ?_,
      fun _ => subtractInto_reg_other aliasMode y x s⟩⟩
  · rw [subtractInto_reg aliasMode x s hx hy, subWrap_toNat]
  · rintro rfl
    exact subtractInto_self aliasMode x x s
  · rw [subtractInto_reg aliasMode x s hy hx, subWrap_toNat]
  · rintro rfl
    exact subtractInto_self aliasMode x x s

/-! ## The shifts (R104, R106): y is not an operand -/

theorem exec_shr (x y : Reg) (s : State) : exec (.shr x y) s = .next (shrUnder aliasMode x s) := rfl

theorem exec_shl (x y : Reg) (s : State) : exec (.shl x y) s = .next (shlUnder aliasMode x s) := rfl

theorem shrUnder_of_ne (mode : Config.VfAliasMode) {x : Reg} (s : State) (hx : x ≠ Reg.VF) :
    shrUnder mode x s = s.setFlagThenReg (lowBitFlag (s.reg x)) x (shiftRight (s.reg x)) := by
  rw [shrUnder, readAfterFlag_of_ne mode _ _ hx]

theorem shlUnder_of_ne (mode : Config.VfAliasMode) {x : Reg} (s : State) (hx : x ≠ Reg.VF) :
    shlUnder mode x s = s.setFlagThenReg (highBitFlag (s.reg x)) x (shiftLeft (s.reg x)) := by
  rw [shlUnder, readAfterFlag_of_ne mode _ _ hx]

/-- Settles O41: `shrUnder` and `shlUnder` do not take y, and with x other than F they shift the old V[x]. -/
theorem shiftsPutTheLostBitInVF : Obligations.ShiftsPutTheLostBitInVF := by
  intro x y y' s
  refine ⟨formatXYN_group8_toNat x y 0x6, formatXYN_group8_toNat x y 0xE,
    (exec_shr x y s).trans (exec_shr x y' s).symm, (exec_shl x y s).trans (exec_shl x y' s).symm,
    ⟨_, exec_shr x y s, fun hx => ?_, fun _ => s.setFlagThenReg_reg_other _ _⟩,
    ⟨_, exec_shl x y s, fun hx => ?_, fun _ => s.setFlagThenReg_reg_other _ _⟩⟩
  · rw [shrUnder_of_ne aliasMode s hx, State.setFlagThenReg_reg_same, State.setFlagThenReg_flag s _ _ hx]
    exact ⟨shiftRight_toNat _, lowBitFlag_toNat _⟩
  · rw [shlUnder_of_ne aliasMode s hx, State.setFlagThenReg_reg_same, State.setFlagThenReg_flag s _ _ hx]
    exact ⟨shiftLeft_toNat _, highBitFlag_toNat _⟩

end Sys2Proof.Machine
end

section
/-! PROOFS. The instructions that set I, and the decimal digits in memory (spec 44_index_memory.md R109, R111, R112). -/

namespace Sys2Proof.Machine

/-! ## Setting I (R109, R111) -/

theorem exec_ldI (nnn : Addr12) (s : State) : exec (.ldI nnn) s = .next (s.setI (zextAddr nnn)) := rfl

theorem exec_ldF (x : Reg) (s : State) : exec (.ldF x) s = .next (s.setI (glyphAddr (s.reg x))) := rfl

/-- Five times a byte is at most 1275, so the product does not wrap. -/
theorem glyphAddr_toNat (b : Byte) : (glyphAddr b).toNat = b.toNat * 5 := by
  have h5 : (5 : Word).toNat = 5 := rfl
  have hb := b.isLt
  rw [glyphAddr, BitVec.toNat_mul, zextByte_toNat, h5]
  omega

/-- The low byte of a group-F word is its sub-opcode (30_encoding.md R55, R63). -/
theorem formatXS_groupF_toNat (x : Reg) (kk : Byte) :
    (formatXS x kk).toNat = 0xF000 + kk.toNat + 0x100 * x.val := by
  rw [formatXS_toNat]
  omega

/-- Settles O50: each is one write of I, of a number that fits in 16 bits, and a write of I keeps every register. -/
theorem ldIAndLdFSetTheAddress : Obligations.LdIAndLdFSetTheAddress := fun x nnn s =>
  ⟨formatNNN_toNat 0xA nnn, formatXS_groupF_toNat x 0x29,
    ⟨_, exec_ldI nnn s, zextAddr_toNat nnn, s.setI_reg _⟩,
    ⟨_, exec_ldF x s, glyphAddr_toNat _, s.setI_reg _⟩⟩

/-! ## The decimal digits (R112) -/

theorem exec_ldB_in (x : Reg) {s : State} (h : s.i.toNat + 2 < 4096) :
    exec (.ldB x) s = .next { s with mem := s.mem.setBytes s.i.toNat (bcdDigits (s.reg x)) } :=
  (execLdB_eq x s).trans (if_pos h)

theorem exec_ldB_out (x : Reg) {s : State} (h : 4096 ≤ s.i.toNat + 2) :
    exec (.ldB x) s = .fault .memoryOutOfRange :=
  (execLdB_eq x s).trans (if_neg (Nat.not_lt.mpr h))

/-- The hundreds of a byte are at most 2 and the other digits at most 9, so each digit fits in its byte. -/
theorem bcdDigits_toNat (b : Byte) :
    ((bcdDigits b)[0]'(by simp)).toNat = b.toNat / 100 ∧ ((bcdDigits b)[1]'(by simp)).toNat = b.toNat / 10 % 10 ∧
    ((bcdDigits b)[2]'(by simp)).toNat = b.toNat % 10 := by
  have hb := b.isLt
  refine ⟨Nat.mod_eq_of_lt ?_, Nat.mod_eq_of_lt ?_, Nat.mod_eq_of_lt ?_⟩ <;> omega

theorem Memory.get_setBytes_bcdDigits (m : Memory) (a : Nat) (b : Byte) :
    ((m.setBytes a (bcdDigits b)).get a).toNat = b.toNat / 100 ∧
    ((m.setBytes a (bcdDigits b)).get (a + 1)).toNat = b.toNat / 10 % 10 ∧
    ((m.setBytes a (bcdDigits b)).get (a + 2)).toNat = b.toNat % 10 := by
  have hget (k : Nat) (h : k < (bcdDigits b).length) : (m.setBytes a (bcdDigits b)).get (a + k) = (bcdDigits b)[k] :=
    Memory.get_setBytes_inside m h
  obtain ⟨hundreds, tens, units⟩ := bcdDigits_toNat b
  exact ⟨hget 0 (by simp) ▸ hundreds, hget 1 (by simp) ▸ tens, hget 2 (by simp) ▸ units⟩

/-- The value of a byte is the sum of its digits' values. -/
theorem byte_eq_digits_sum (b : Byte) :
    100 * (b.toNat / 100) + 10 * (b.toNat / 10 % 10) + b.toNat % 10 = b.toNat := by
  have hb := b.isLt
  omega

/-- Settles O52: with all three addresses in range Fx33 is one block write of the digits; else it is the fault. -/
theorem ldBStoresDecimalDigits : Obligations.LdBStoresDecimalDigits := by
  intro x s
  refine ⟨formatXS_groupF_toNat x 0x33, fun h => ?_, exec_ldB_out x⟩
  obtain ⟨hundreds, tens, units⟩ := s.mem.get_setBytes_bcdDigits s.i.toNat (s.reg x)
  refine ⟨_, exec_ldB_in x h, hundreds, tens, units, ?_, rfl, fun _ => rfl⟩
  rw [hundreds, tens, units, byte_eq_digits_sum]

end Sys2Proof.Machine
end

section
/-! PROOFS. Construction and reset, and the bytes the next fetch reads after a store
(spec 70_reset_and_hazards.md R138, R145). -/

namespace Sys2Proof.Machine

/-! ## A store and the fetch after it (R145) -/

@[simp] theorem highByte_wordOfBytes (b0 b1 : Byte) : highByte (wordOfBytes b0 b1) = b0 := by
  have h1 := b1.isLt
  apply BitVec.eq_of_toNat_eq
  rw [highByte_toNat, wordOfBytes_toNat]
  omega

@[simp] theorem lowByte_wordOfBytes (b0 b1 : Byte) : lowByte (wordOfBytes b0 b1) = b1 := by
  have h1 := b1.isLt
  apply BitVec.eq_of_toNat_eq
  rw [lowByte_toNat, wordOfBytes_toNat]
  omega

/-- A block store that succeeds changes memory and nothing else. -/
theorem commit_writeBytes_next {s t : State} {a : Nat} {bs : List Byte}
    (h : commit (s.writeBytes a bs) = .next t) : t = { s with mem := s.mem.setBytes a bs } := by
  have hw := commit_next h
  rw [State.writeBytes_eq] at hw
  split at hw
  · cases hw
    rfl
  · cases hw

/-- After a block store a fetch in range reads, in each half of its word that lies in the block, the stored byte. -/
theorem fetch_after_commit_writeBytes {s t : State} {a : Nat} {bs : List Byte} {p : Word}
    (hp : p.toNat < 0xFFF) (h : commit (s.writeBytes a bs) = .next t) :
    ∃ w, (t.setPc p).fetch = .ok w ∧ ∀ (k : Nat) (hk : k < bs.length),
      (p.toNat = a + k → highByte w = bs[k]) ∧ (p.toNat + 1 = a + k → lowByte w = bs[k]) := by
  obtain rfl := commit_writeBytes_next h
  refine ⟨_, State.fetch_in hp, fun k hk => ⟨fun hhigh => ?_, fun hlow => ?_⟩⟩
  · rw [State.wordAtPc, highByte_wordOfBytes, State.setPc_pc, State.setPc_mem, hhigh, Memory.get_setBytes_inside _ hk]
  · rw [State.wordAtPc, lowByte_wordOfBytes, State.setPc_pc, State.setPc_mem, hlow, Memory.get_setBytes_inside _ hk]

/-- Settles O28: Fx33 and Fx55 are block stores at I, of the digits and of V0 to V[x]. -/
theorem storesReachTheNextFetch : Obligations.StoresReachTheNextFetch := by
  intro x s t p hp
  refine ⟨fetch_after_commit_writeBytes hp, fun h => ?_⟩
  obtain ⟨w, hfetch, hbytes⟩ := fetch_after_commit_writeBytes hp h
  refine ⟨w, hfetch, fun r hr => ?_⟩
  have hk : r.val < (s.regsUpTo x).length := by
    rw [State.regsUpTo_length]
    exact Nat.lt_succ_of_le hr
  rw [← State.regsUpTo_getElem s x r.val hk]
  exact hbytes r.val hk

/-! ## Construction and reset (R138) -/

/-- The reset values need of memory only how each address reads, and nothing of the draw counter. -/
theorem isResetFor_of_get {fontBytes : Vector Byte 80} {m : Memory}
    (hm : ∀ a, m.get a = if h : a < 80 then fontBytes[a] else 0) (draws : Nat) :
    { State.reset with mem := m, draws := draws }.IsResetFor fontBytes := by
  refine ⟨fun r => ?_, rfl, rfl, rfl, fun j => ?_, rfl, State.pixelAt_of_clearDisplay rfl, fun a ha => ?_,
    fun a ha _ => ?_⟩
  · exact Vector.getElem_replicate r.isLt
  · exact Vector.getElem_replicate j.isLt
  · exact (hm a).trans (dif_pos ha)
  · exact (hm a).trans (dif_neg (Nat.not_lt.mpr ha))

theorem State.restart_isResetFor (fontBytes : Vector Byte 80) (s : State) :
    (s.restart fontBytes).IsResetFor fontBytes :=
  isResetFor_of_get (State.resetWith_get fontBytes) s.draws

/-- The unlisted addresses of reset memory read as the model's own table. -/
theorem State.reset_get {fontBytes : Vector Byte 80} (hfont : fontBytes.toList = font) (a : Nat) :
    State.reset.mem.get a = if h : a < 80 then fontBytes[a] else 0 := by
  change unlisted a = _
  rw [unlisted, ← hfont, List.getD_eq_getElem?_getD]
  split
  case isTrue ha => simp [ha]
  case isFalse ha => simp [Nat.not_lt.mp ha]

/-- Settles O30: construction and reset are `State.restart`; State.reset differs only in how memory holds FONT. -/
theorem newAndResetReachTheResetState : Obligations.NewAndResetReachTheResetState := fun fontBytes s _ =>
  ⟨rfl, rfl, s.restart_isResetFor fontBytes, s.restart_isResetFor fontBytes,
    fun hfont => isResetFor_of_get (State.reset_get hfont) State.reset.draws⟩

end Sys2Proof.Machine
end

section
/-! PROOFS. Decoding and encoding are inverse, the row of a word, and the assembler (spec 30_encoding.md). -/

namespace Sys2Proof

/-! ## From an instruction to its word and back (R55, R64) -/

theorem decode_formatXYN_group8 (x y : Reg) (n : Fin 16) : decode (formatXYN 0x8 x y n) = decode8 x y n := by
  rw [decode_op8 (fieldOp_formatXYN _ x y n), fieldX_formatXYN, fieldY_formatXYN, fieldN_formatXYN]

theorem decode_formatXS (x : Reg) (kk : Byte) : decode (formatXS x kk) = decodeF x kk := by
  rw [formatXS_eq, decode_opF (fieldOp_formatXKK _ x kk), fieldX_formatXKK, fieldKk_formatXKK]

/-- By instruction: the format gives op back, op selects the arm of `decode`, and the format gives the fields back. -/
theorem decode_encode (i : Instr) : decode (encode i) = .ok i := by
  cases i with
  | cls => rfl
  | ret => rfl
  | jp nnn => simp [encode, decode_op1]
  | call nnn => simp [encode, decode_op2]
  | seImm x kk => simp [encode, decode_op3]
  | sneImm x kk => simp [encode, decode_op4]
  | seReg x y => simp [encode, decode_op5]
  | ldImm x kk => simp [encode, decode_op6]
  | addImm x kk => simp [encode, decode_op7]
  | sneReg x y => simp [encode, decode_op9]
  | ldI nnn => simp [encode, decode_opA]
  | jpV0 nnn => simp [encode, decode_opB]
  | rnd x kk => simp [encode, decode_opC]
  | drw x y n => simp [encode, decode_opD]
  | ldVxDt x | ldDtVx x | addI x | ldF x | ldB x | storeRegs x | loadRegs x => exact decode_formatXS x _
  | ldReg x y | or x y | and x y | xor x y | addReg x y | sub x y | shr x y | subn x y | shl x y =>
    exact decode_formatXYN_group8 x y _

/-! ## From a word to its instruction and back -/

/-- Each arm of `decode8` answers the instruction whose sub-opcode is the arm's n. -/
theorem encode_of_decode8 {x y : Reg} {n : Fin 16} {i : Instr} (h : decode8 x y n = .ok i) :
    encode i = formatXYN 0x8 x y n := by
  unfold decode8 at h
  split at h
  case h_10 => cases h
  all_goals
    cases h
    exact congrArg (formatXYN 0x8 x y) (Fin.ext (Eq.symm ‹n.val = _›))

/-- Each arm of `decodeF` answers the instruction whose sub-opcode is the arm's kk. -/
theorem encode_of_decodeF {x : Reg} {kk : Byte} {i : Instr} (h : decodeF x kk = .ok i) :
    encode i = formatXS x kk := by
  unfold decodeF at h
  split at h
  case h_8 => cases h
  all_goals
    cases h
    exact congrArg (formatXS x) (BitVec.eq_of_toNat_eq (Eq.symm ‹kk.toNat = _›))

/-- Groups 5 and 9: the one sub-opcode is n = 0. -/
theorem formatXYN_zero_fields {w : Word} {op : BitVec 4} (hop : (fieldOp w).val = op.toNat)
    (hn : (fieldN w).val = 0) : formatXYN op (fieldX w) (fieldY w) 0 = w := by
  rw [← Fin.ext (a := fieldN w) (b := 0) hn, formatXYN_fields hop]

/-- By op, which selects the arm of `decode`: the word is its format filled with its own fields. -/
theorem encode_of_decode {w : Word} {i : Instr} (h : decode w = .ok i) : encode i = w := by
  match hop : (fieldOp w).val, (fieldOp w).isLt with
  | 0x0, _ =>
    rw [decode_op0 hop] at h
    split at h
    · cases h; exact Eq.symm ‹w = _›
    · split at h
      · cases h; exact Eq.symm ‹w = 0x00EE›
      · cases h
  | 0x1, _ => rw [decode_op1 hop] at h; cases h; exact formatNNN_fields hop
  | 0x2, _ => rw [decode_op2 hop] at h; cases h; exact formatNNN_fields hop
  | 0x3, _ => rw [decode_op3 hop] at h; cases h; exact formatXKK_fields hop
  | 0x4, _ => rw [decode_op4 hop] at h; cases h; exact formatXKK_fields hop
  | 0x5, _ =>
    rw [decode_op5 hop] at h
    split at h
    · cases h; exact formatXYN_zero_fields hop ‹_›
    · cases h
  | 0x6, _ => rw [decode_op6 hop] at h; cases h; exact formatXKK_fields hop
  | 0x7, _ => rw [decode_op7 hop] at h; cases h; exact formatXKK_fields hop
  | 0x8, _ => rw [decode_op8 hop] at h; exact (encode_of_decode8 h).trans (formatXYN_fields hop)
  | 0x9, _ =>
    rw [decode_op9 hop] at h
    split at h
    · cases h; exact formatXYN_zero_fields hop ‹_›
    · cases h
  | 0xA, _ => rw [decode_opA hop] at h; cases h; exact formatNNN_fields hop
  | 0xB, _ => rw [decode_opB hop] at h; cases h; exact formatNNN_fields hop
  | 0xC, _ => rw [decode_opC hop] at h; cases h; exact formatXKK_fields hop
  | 0xD, _ => rw [decode_opD hop] at h; cases h; exact formatXYN_fields hop
  | 0xE, _ => rw [decode_opE hop] at h; cases h
  | 0xF, _ => rw [decode_opF hop] at h; exact (encode_of_decodeF h).trans (formatXKK_fields hop)
  | op + 16, hlt => exact absurd hlt (by omega)

theorem decode_eq_ok_iff {w : Word} {i : Instr} : decode w = .ok i ↔ encode i = w := by
  refine ⟨encode_of_decode, ?_⟩
  rintro rfl
  exact decode_encode i

/-- Settles O1, one direction by instruction and the other by group of words. -/
theorem decodeInvertsEncode : Obligations.DecodeInvertsEncode := fun _ _ => decode_eq_ok_iff

/-- Settles O5: each instruction's sample is its encoding; the two unknown words fall in their groups. -/
theorem sampleWordsDecode : Obligations.SampleWordsDecode :=
  ⟨decode_encode .cls, decode_encode (.jp 0xABC), decode_encode (.seImm 0x3 0x42), decode_encode (.sub 0x0 0xF),
    decode_encode (.ldI 0x2F0), decode_encode (.drw 0x1 0x2 0xF), decode_encode (.ldB 0x7),
    decode_encode (.ldVxDt 0x1), decode_op5 rfl, decode_op0 rfl⟩

/-! ## The row of a word (R64, R65) -/

theorem rowMatch (i : Instr) : Laws.RowMatch.Statement i := by
  cases i with
  | cls => exact Laws.RowMatch.cls
  | ret => exact Laws.RowMatch.ret
  | jp nnn => exact Laws.RowMatch.jp nnn
  | call nnn => exact Laws.RowMatch.call nnn
  | seImm x kk => exact Laws.RowMatch.seImm x kk
  | sneImm x kk => exact Laws.RowMatch.sneImm x kk
  | seReg x y => exact Laws.RowMatch.seReg x y
  | ldImm x kk => exact Laws.RowMatch.ldImm x kk
  | addImm x kk => exact Laws.RowMatch.addImm x kk
  | ldReg x y => exact Laws.RowMatch.ldReg x y
  | or x y => exact Laws.RowMatch.or x y
  | and x y => exact Laws.RowMatch.and x y
  | xor x y => exact Laws.RowMatch.xor x y
  | addReg x y => exact Laws.RowMatch.addReg x y
  | sub x y => exact Laws.RowMatch.sub x y
  | shr x y => exact Laws.RowMatch.shr x y
  | subn x y => exact Laws.RowMatch.subn x y
  | shl x y => exact Laws.RowMatch.shl x y
  | sneReg x y => exact Laws.RowMatch.sneReg x y
  | ldI nnn => exact Laws.RowMatch.ldI nnn
  | jpV0 nnn => exact Laws.RowMatch.jpV0 nnn
  | rnd x kk => exact Laws.RowMatch.rnd x kk
  | drw x y n => exact Laws.RowMatch.drw x y n
  | ldVxDt x => exact Laws.RowMatch.ldVxDt x
  | ldDtVx x => exact Laws.RowMatch.ldDtVx x
  | addI x => exact Laws.RowMatch.addI x
  | ldF x => exact Laws.RowMatch.ldF x
  | ldB x => exact Laws.RowMatch.ldB x
  | storeRegs x => exact Laws.RowMatch.storeRegs x
  | loadRegs x => exact Laws.RowMatch.loadRegs x

theorem Instr.row_pos (i : Instr) : 0 < i.row := by
  cases i <;> exact Nat.succ_pos _

theorem opcodeMap_nodup : opcodeMap.Nodup := by
  decide

/-- The rows a word of the table matches are the instruction's own and no other. -/
theorem matches_encode_iff (i : Instr) (k : Nat) :
    (∃ r, opcodeMap[k]? = some r ∧ r.matchesWord (encode i) = true) ↔ k + 1 = i.row := by
  obtain ⟨r, hr, hm⟩ := rowMatch i
  have hpos := i.row_pos
  constructor
  · rintro ⟨r', hr', hm'⟩
    obtain rfl := opcodeMap_eq_of_matchesWord (List.mem_of_getElem? hr') (List.mem_of_getElem? hr) hm' hm
    have hk : k < opcodeMap.length := (List.getElem?_eq_some_iff.mp hr').1
    have := (List.getElem?_inj hk opcodeMap_nodup).mp (hr'.trans hr.symm)
    omega
  · intro hk
    obtain rfl : k = i.row - 1 := by omega
    exact ⟨r, hr, hm⟩

section
variable {w p : Word}

theorem eq_of_matches_all (h : OpcodeRow.matchesWord ⟨p, 0xFFFF⟩ w = true) : p = w :=
  (OpcodeRow.matchesWord_iff.mp h).symm.trans (mask_all w)

theorem fieldOp_of_matches (op : BitVec 4) (h : OpcodeRow.matchesWord ⟨formatNNN op 0, 0xF000⟩ w = true) :
    (fieldOp w).val = op.toNat := by
  have hop := (mask_op w).symm.trans (OpcodeRow.matchesWord_iff.mp h)
  simpa [nibbleBits_toNat] using congrArg (fun w => (fieldOp w).val) hop

theorem formatXYN_of_matches (op : BitVec 4) (n : Fin 16)
    (h : OpcodeRow.matchesWord ⟨formatXYN op 0 0 n, 0xF00F⟩ w = true) :
    formatXYN op (fieldX w) (fieldY w) n = w := by
  have hopn := (mask_op_n w).symm.trans (OpcodeRow.matchesWord_iff.mp h)
  have hop : (fieldOp w).val = op.toNat := by simpa [nibbleBits_toNat] using congrArg (fun w => (fieldOp w).val) hopn
  have hn : fieldN w = n := by simpa using congrArg fieldN hopn
  rw [← hn, formatXYN_fields hop]

theorem formatXS_of_matches (kk : Byte) (h : OpcodeRow.matchesWord ⟨formatXKK 0xF 0 kk, 0xF0FF⟩ w = true) :
    formatXS (fieldX w) kk = w := by
  have hopkk := (mask_op_kk w).symm.trans (OpcodeRow.matchesWord_iff.mp h)
  have hop : (fieldOp w).val = (0xF : BitVec 4).toNat := by
    simpa [nibbleBits_toNat] using congrArg (fun w => (fieldOp w).val) hopkk
  have hkk : fieldKk w = kk := by simpa using congrArg fieldKk hopkk
  rw [← hkk, formatXS_eq, formatXKK_fields hop]

end

/-- Row by row: a word that matches is the row's format filled with the word's own fields. -/
theorem exists_encode_of_matches {w : Word} :
    ∀ r ∈ opcodeMap, r.matchesWord w = true → ∃ i, encode i = w := by
  simp only [opcodeMap, List.cons_append, List.nil_append, List.forall_mem_cons]
  exact ⟨fun h => ⟨.cls, eq_of_matches_all h⟩, fun h => ⟨.ret, eq_of_matches_all h⟩,
    fun h => ⟨.jp _, formatNNN_fields (fieldOp_of_matches 0x1 h)⟩,
    fun h => ⟨.call _, formatNNN_fields (fieldOp_of_matches 0x2 h)⟩,
    fun h => ⟨.seImm _ _, formatXKK_fields (fieldOp_of_matches 0x3 h)⟩,
    fun h => ⟨.sneImm _ _, formatXKK_fields (fieldOp_of_matches 0x4 h)⟩,
    fun h => ⟨.seReg _ _, formatXYN_of_matches 0x5 0 h⟩,
    fun h => ⟨.ldImm _ _, formatXKK_fields (fieldOp_of_matches 0x6 h)⟩,
    fun h => ⟨.addImm _ _, formatXKK_fields (fieldOp_of_matches 0x7 h)⟩,
    fun h => ⟨.ldReg _ _, formatXYN_of_matches 0x8 0x0 h⟩, fun h => ⟨.or _ _, formatXYN_of_matches 0x8 0x1 h⟩,
    fun h => ⟨.and _ _, formatXYN_of_matches 0x8 0x2 h⟩, fun h => ⟨.xor _ _, formatXYN_of_matches 0x8 0x3 h⟩,
    fun h => ⟨.addReg _ _, formatXYN_of_matches 0x8 0x4 h⟩, fun h => ⟨.sub _ _, formatXYN_of_matches 0x8 0x5 h⟩,
    fun h => ⟨.shr _ _, formatXYN_of_matches 0x8 0x6 h⟩, fun h => ⟨.subn _ _, formatXYN_of_matches 0x8 0x7 h⟩,
    fun h => ⟨.shl _ _, formatXYN_of_matches 0x8 0xE h⟩, fun h => ⟨.sneReg _ _, formatXYN_of_matches 0x9 0 h⟩,
    fun h => ⟨.ldI _, formatNNN_fields (fieldOp_of_matches 0xA h)⟩,
    fun h => ⟨.jpV0 _, formatNNN_fields (fieldOp_of_matches 0xB h)⟩,
    fun h => ⟨.rnd _ _, formatXKK_fields (fieldOp_of_matches 0xC h)⟩,
    fun h => ⟨.drw _ _ _, formatXYN_fields (fieldOp_of_matches 0xD h)⟩,
    fun h => ⟨.ldVxDt _, formatXS_of_matches 0x07 h⟩, fun h => ⟨.ldDtVx _, formatXS_of_matches 0x15 h⟩,
    fun h => ⟨.addI _, formatXS_of_matches 0x1E h⟩, fun h => ⟨.ldF _, formatXS_of_matches 0x29 h⟩,
    fun h => ⟨.ldB _, formatXS_of_matches 0x33 h⟩, fun h => ⟨.storeRegs _, formatXS_of_matches 0x55 h⟩,
    fun h => ⟨.loadRegs _, formatXS_of_matches 0x65 h⟩, fun _ h => absurd h List.not_mem_nil⟩

/-- Settles O4: a word that decodes is an encoding, whose row is the only one to match; a word that matches a row is an
encoding, so an unknown word matches none. -/
theorem opcodeMapSelectsTheRow : Obligations.OpcodeMapSelectsTheRow := by
  intro w
  refine ⟨fun i hi k => ?_, ?_⟩
  · obtain rfl := encode_of_decode hi
    exact matches_encode_iff i k
  · constructor
    · rintro ⟨u, hu⟩ r hr
      rw [← Bool.not_eq_true]
      intro hm
      obtain ⟨i, rfl⟩ := exists_encode_of_matches r hr hm
      rw [decode_encode] at hu
      cases hu
    · intro hnone
      cases hd : decode w with
      | error u => exact ⟨u, rfl⟩
      | ok i =>
        obtain rfl := encode_of_decode hd
        obtain ⟨r, hr, hm⟩ := rowMatch i
        exact absurd hm (Bool.not_eq_true _ ▸ hnone r (List.mem_of_getElem? hr))

/-! ## The assembler (R66) -/

@[simp] theorem Operand.regFits_reg (r : Reg) : Operand.regFits r.val = true := decide_eq_true r.isLt

@[simp] theorem Operand.numFits_toNat {bits : Nat} (b : BitVec bits) : Operand.numFits bits b.toNat = true :=
  decide_eq_true b.isLt

@[simp] theorem Operand.numFits_rows (n : Fin 16) : Operand.numFits 4 n.val = true := decide_eq_true n.isLt

theorem wellFormed_disassemble (i : Instr) : (disassemble i).wellFormed = true := by
  cases i <;> simp [disassemble, AsmInstr.wellFormed]

theorem assembleShape_disassemble (i : Instr) : assembleShape (disassemble i) = some i := by
  cases i <;> simp [disassemble, assembleShape]

/-- By the shapes of `wellFormed`: `assembleShape` has an arm for each. -/
theorem assembleShape_isSome {a : AsmInstr} (h : a.wellFormed = true) : (assembleShape a).isSome = true := by
  obtain ⟨mnemonic, operands⟩ := a
  unfold AsmInstr.wellFormed at h
  split at h
  case h_33 => cases h
  all_goals
    simp only at *
    subst_vars
    rfl

/-- Settles O6: the source term of an instruction is well-formed, and `assemble` is `assembleShape` on such terms. -/
theorem assemblerRoundTrip : Obligations.AssemblerRoundTrip := by
  refine ⟨fun i => ?_, fun a => ?_⟩
  · rw [assemble, if_pos (wellFormed_disassemble i), assembleShape_disassemble]
  · rw [assemble]
    split
    case isTrue h => rw [assembleShape_isSome h, h]
    case isFalse h => simp [h]

end Sys2Proof
end

section
/-! PROOFS. What each instruction may write, said once, and the frames that follow from it
(spec 92_eei_decisions.md D28). -/

namespace Sys2Proof.Machine

/-- The components an instruction may write, run from s: the destinations its row names. -/
def Writes (s : State) : Instr → Component → Prop
  | .cls, c => ∃ px py, c = .pixel px py
  | .ret, c => c = .pc ∨ c = .sp
  | .call _, c => c = .pc ∨ c = .sp ∨ ∃ j : Fin 16, j.val = s.sp.toNat ∧ c = .slot j
  | .jp _, c | .jpV0 _, c | .seImm _ _, c | .sneImm _ _, c | .seReg _ _, c | .sneReg _ _, c => c = .pc
  | .ldImm x _, c | .addImm x _, c | .ldReg x _, c | .or x _, c | .and x _, c | .xor x _, c | .ldVxDt x, c =>
    c = .reg x
  | .addReg x _, c | .sub x _, c | .shr x _, c | .subn x _, c | .shl x _, c => c = .reg x ∨ c = .reg Reg.VF
  | .ldI _, c | .addI _, c | .ldF _, c => c = .addr
  | .ldDtVx _, c => c = .timer
  | .rnd x _, c => c = .reg x ∨ c = .draws
  | .drw _ _ _, c => c = .reg Reg.VF ∨ ∃ px py, c = .pixel px py
  | .ldB _, c => ∃ k, k < 3 ∧ c = .byte (baseAddr s + k)
  | .storeRegs x, c => ∃ k, k < x.val + 1 ∧ c = .byte (baseAddr s + k)
  | .loadRegs x, c => ∃ r : Reg, r ≤ x ∧ c = .reg r

/-! ## A new display, a skip, and the next state of 2nnn, 00EE, Fx65 and Cxkk -/

theorem withDisp_keeps (s : State) (d : Display) :
    KeepsAllBut (fun c => ∃ px py, c = .pixel px py) s { s with disp := d } := by
  intro c hc
  cases c with
  | pixel px py => exact absurd ⟨px, py, rfl⟩ hc
  | _ => rfl

theorem skipIf_keeps {b : Bool} {s t : State} (h : skipIf b s = .next t) : KeepsAllBut (fun c => c = .pc) s t := by
  cases b with
  | true => cases h; exact setPc_keeps s _
  | false => cases h; exact KeepsAllBut.refl s

/-- A 2nnn that succeeds pushed the advanced pc and set pc. -/
theorem exec_call_next {nnn : Addr12} {s t : State} (h : exec (.call nnn) s = .next t) :
    ∃ u, s.push s.pc = .ok u ∧ t = u.setPc (zextAddr nnn) := by
  change execCall nnn s = _ at h
  unfold execCall at h
  split at h
  · cases h
  · cases h; exact ⟨_, ‹_›, rfl⟩

/-- A 00EE that succeeds popped into pc. -/
theorem exec_ret_next {s t : State} (h : exec .ret s = .next t) : ∃ w u, s.pop = .ok (w, u) ∧ t = u.setPc w := by
  change execRet s = _ at h
  unfold execRet at h
  split at h
  · cases h
  · cases h; exact ⟨_, _, ‹_›, rfl⟩

/-- An Fx65 that succeeds loads the x + 1 bytes at I. -/
theorem exec_loadRegs_next {x : Reg} {s t : State} (h : exec (.loadRegs x) s = .next t) :
    t = s.loadRegsFrom 0 (s.bytesAt s.i.toNat (x.val + 1)) := by
  change execLoadRegs x s = _ at h
  rw [execLoadRegs_eq] at h
  split at h
  · cases h; rfl
  · cases h

theorem exec_rnd (x : Reg) (kk : Byte) (s : State) :
    exec (.rnd x kk) s = .next (s.setReg x (Config.randByte s.draws &&& kk)).nextDraw := rfl

/-! ## The frame of an instruction -/

/-- An instruction that succeeds changes only what it may write: by instruction, the frame of its state operation. -/
theorem exec_keeps {i : Instr} {s t : State} (h : exec i s = .next t) : KeepsAllBut (Writes s i) s t := by
  cases i with
  | cls => cases h; exact withDisp_keeps s _
  | ret =>
    obtain ⟨w, u, hpop, rfl⟩ := exec_ret_next h
    exact ((pop_keeps hpop).mono fun _ => .inr).trans ((setPc_keeps u w).mono fun _ => .inl)
  | call nnn =>
    obtain ⟨u, hpush, rfl⟩ := exec_call_next h
    exact ((push_keeps hpush).mono fun _ => .inr).trans ((setPc_keeps u _).mono fun _ => .inl)
  | jp _ | jpV0 _ => cases h; exact setPc_keeps s _
  | seImm _ _ | sneImm _ _ | seReg _ _ | sneReg _ _ => exact skipIf_keeps h
  | ldImm x _ | addImm x _ | ldReg x _ | or x _ | and x _ | xor x _ | ldVxDt x => cases h; exact setReg_keeps s x _
  | addReg x _ | sub x _ | shr x _ | subn x _ | shl x _ => cases h; exact setFlagThenReg_keeps s _ _ x
  | ldI _ | addI _ | ldF _ => cases h; exact setI_keeps s _
  | ldDtVx x => cases h; exact setTimer_keeps s _
  | rnd x kk =>
    cases h
    exact ((setReg_keeps s x _).mono fun _ => .inl).trans ((nextDraw_keeps _).mono fun _ => .inr)
  | drw x y n => exact exec_drw_next h ▸ drawSprite_keeps aliasMode x y _ s
  | ldB x => exact writeBytes_keeps (commit_next h)
  | storeRegs x =>
    refine (writeBytes_keeps (commit_next h)).mono ?_
    rintro c ⟨k, hk, rfl⟩
    exact ⟨k, State.regsUpTo_length s x ▸ hk, rfl⟩
  | loadRegs x =>
    rw [exec_loadRegs_next h]
    refine (loadRegsFrom_keeps (by rw [State.bytesAt_length]; omega)).mono ?_
    rintro c ⟨r, hr, rfl⟩
    rw [State.bytesAt_length] at hr
    exact ⟨r, Nat.le_of_lt_succ hr, rfl⟩

/-- Settles O20: `Writes` of each of the seven is its destination register. -/
theorem frameOneRegister : Obligations.FrameOneRegister := by
  rintro x y kk s t (h | h | h | h | h | h | h) <;> exact exec_keeps h

/-- Settles O21: `Writes` of each of the five is its destination register and VF. -/
theorem frameRegisterAndFlag : Obligations.FrameRegisterAndFlag := by
  rintro x y s t (h | h | h | h | h) <;> exact exec_keeps h

/-- Settles O22, from `Writes` of the jumps, the skips, the call and the return. -/
theorem frameControlFlow : Obligations.FrameControlFlow := by
  intro x y kk nnn s t
  refine ⟨?_, exec_keeps, exec_keeps⟩
  rintro (h | h | h | h | h | h) <;> exact exec_keeps h

/-- Settles O23, from `Writes` of the five. -/
theorem frameAddressTimerRandom : Obligations.FrameAddressTimerRandom := by
  intro x kk nnn s t
  refine ⟨?_, exec_keeps, exec_keeps⟩
  rintro (h | h | h) <;> exact exec_keeps h

/-- Settles O24, from `Writes` of the three. -/
theorem frameMemoryInstructions : Obligations.FrameMemoryInstructions := fun _ _ _ =>
  ⟨exec_keeps, exec_keeps, exec_keeps⟩

/-- Settles O25, from `Writes` of the two. -/
theorem frameDisplay : Obligations.FrameDisplay := fun _ _ _ _ _ => ⟨exec_keeps, exec_keeps⟩

end Sys2Proof.Machine
end

section
/-! PROOFS. The invariant: sp counts 0 to 16 entries and memory is canonical (spec 10_state.md R19, R23). -/

namespace Sys2Proof.Machine

/-- The invariant speaks of sp and memory only. -/
theorem State.Inv.congr {s t : State} (hs : s.Inv) (hsp : t.sp = s.sp) (hmem : t.mem = s.mem) : t.Inv := by
  rw [State.Inv, hsp, hmem]
  exact hs

theorem State.Inv.advancePc {s : State} (hs : s.Inv) : s.advancePc.Inv := hs.congr rfl rfl

theorem State.Inv.tick {s : State} (hs : s.Inv) : s.tick.Inv := by
  rw [State.tick_only_timer]
  exact hs.congr rfl rfl

/-- A block store in range keeps memory canonical, and touches no sp. -/
theorem State.Inv.setBytes {s : State} {base : Nat} {bs : List Byte} (hs : s.Inv) (h : base + bs.length ≤ 4096) :
    State.Inv { s with mem := s.mem.setBytes base bs } := by
  obtain ⟨hsp, hmem⟩ := hs
  exact ⟨hsp, Memory.setBytes_wf h hmem⟩

/-- A push happens with fewer than 16 entries and counts one more. -/
theorem State.Inv.push {s t : State} {w : Word} (hs : s.Inv) (h : s.push w = .ok t) : t.Inv := by
  obtain ⟨-, hmem⟩ := hs
  obtain ⟨hlt, hp⟩ | ⟨-, hp⟩ := s.push_cases w
  · obtain rfl := Except.ok.inj (hp.symm.trans h)
    exact ⟨(sp_add_one_toNat hlt).trans_le hlt, hmem⟩
  · cases hp.symm.trans h

/-- A pop happens with an entry and counts one less. -/
theorem State.Inv.pop {s t : State} {w : Word} (hs : s.Inv) (h : s.pop = .ok (w, t)) : t.Inv := by
  obtain ⟨hsp, hmem⟩ := hs
  obtain ⟨-, hp⟩ | ⟨_, h0, hp⟩ | ⟨-, hp⟩ := s.pop_cases
  · cases hp.symm.trans h
  · obtain ⟨-, rfl⟩ := Prod.mk.inj (Except.ok.inj (hp.symm.trans h))
    have hone : 1 ≤ s.sp := BitVec.le_def.mpr (Nat.pos_of_ne_zero fun e => h0 (BitVec.eq_of_toNat_eq e))
    have hsub : (s.sp - 1).toNat = s.sp.toNat - 1 := BitVec.toNat_sub_of_le hone
    exact ⟨by change (s.sp - 1).toNat ≤ 16; omega, hmem⟩
  · cases hp.symm.trans h

/-- A block write either keeps the invariant or is a fault: no byte is written out of range. -/
theorem State.Inv.writeBytes {s t : State} {a : Nat} {bs : List Byte} (hs : s.Inv) (h : s.writeBytes a bs = .ok t) :
    t.Inv := by
  rw [State.writeBytes_eq] at h
  split at h
  case isTrue hin =>
    cases h
    obtain rfl | hle := hin
    · exact hs
    · exact hs.setBytes hle
  case isFalse => cases h

/-- By instruction: only 2nnn and 00EE change sp, and only Fx33 and Fx55 write memory. -/
theorem exec_keeps_inv {i : Instr} {s t : State} (hs : s.Inv) (h : exec i s = .next t) : t.Inv := by
  cases i with
  | ret =>
    obtain ⟨w, u, hpop, rfl⟩ := exec_ret_next h
    exact (hs.pop hpop).congr rfl rfl
  | call nnn =>
    obtain ⟨u, hpush, rfl⟩ := exec_call_next h
    exact (hs.push hpush).congr rfl rfl
  | seImm _ _ | sneImm _ _ | seReg _ _ | sneReg _ _ =>
    cases h
    split
    · exact hs.advancePc
    · exact hs
  | ldB x | storeRegs x => exact hs.writeBytes (commit_next h)
  | drw x y n =>
    rw [exec_drw_next h, drawSprite_only]
    exact hs.congr rfl rfl
  | loadRegs x =>
    rw [exec_loadRegs_next h, State.loadRegsFrom_only_v]
    exact hs.congr rfl rfl
  | _ => cases h; exact hs.congr rfl rfl

/-- Settles O12: an instruction keeps the invariant, and the pc advance and the tick do not touch what it speaks of. -/
theorem stepKeepsInvariant : Obligations.StepKeepsInvariant := by
  intro s t hs h
  obtain ⟨i, u, -, hu, rfl⟩ | ⟨-, rfl⟩ := step_next h
  · exact (exec_keeps_inv hs.advancePc hu).tick
  · exact hs.advancePc.tick

/-- Settles O13: the stack is empty and memory lists nothing. -/
theorem resetHoldsInvariant : Obligations.ResetHoldsInvariant := ⟨Nat.zero_le 16, reset_memory_wf⟩

/-- Construction and reset write the 80 bytes of FONT at 0 into the reset memory, in range. -/
theorem State.restart_inv (fontBytes : Vector Byte 80) (s : State) : (s.restart fontBytes).Inv := by
  have hlen : 0 + fontBytes.toList.length ≤ 4096 := by
    rw [Vector.length_toList]
    decide
  exact (resetHoldsInvariant.setBytes hlen).congr rfl rfl

theorem State.Inv.stepRequest {s : State} (hs : s.Inv) : s.stepRequest.1.Inv := by
  unfold State.stepRequest
  split
  · exact stepKeepsInvariant s _ hs ‹_›
  · exact hs
  · exact hs

/-- Settles O14, by request: what writes the state starts anew, stores an image that fits, or steps. -/
theorem transactionsKeepInvariant : Obligations.TransactionsKeepInvariant := by
  intro fontBytes s r hs
  cases r with
  | new _ | reset _ => exact s.restart_inv fontBytes
  | load bytes base =>
    rcases Nat.lt_or_ge 4096 (base + bytes.length) with h | h
    · rw [transact, State.load_too_large h]
      exact hs
    · rw [transact, State.load_fits h]
      exact hs.setBytes h
  | step => exact hs.stepRequest
  | display | inspect => exact hs

end Sys2Proof.Machine
end

section
/-! PROOFS. What a whole step does: the cycle, the timer, what changes, the faults, the idle loop and the random source
(spec 40_step_cycle.md, 45_timer.md, 60_exceptions.md R119). -/

namespace Sys2Proof.Machine

/-! ## The cycle (R76) -/

theorem State.tick_eq (s : State) : s.tick = { s with timer := if s.timer = 0 then 0 else s.timer - 1 } := by
  rw [State.tick_only_timer, State.tick_timer]

theorem stepUnder_unknown (policy : Config.UnknownPolicy) {s : State} {u : UnknownOpcode} (hpc : s.pc.toNat < 0xFFF)
    (hd : decode s.wordAtPc = .error u) : stepUnder policy s = finishStep (unknownOpcode policy s.advancePc) := by
  rw [stepUnder_eq, if_pos hpc, execWord, hd]

theorem State.stepRequest_fault {s : State} {f : Fault} (h : step s = .fault f) : s.stepRequest = (s, .fault f) := by
  rw [State.stepRequest, h]

/-- Settles O7: `finishStep` is the tick after an execution that ended well, and `tick_eq` says what the tick writes. -/
theorem stepIsFetchDecodeExecuteTick : Obligations.StepIsFetchDecodeExecuteTick := by
  refine ⟨fun s => step_out, fun s i hpc hd => ?_, fun s u hpc hd => ⟨?_, stepUnder_unknown .fault hpc hd⟩,
    fun _ s f => State.stepRequest_fault⟩
  · rw [step_instr (State.nextInstr_eq_some.mpr ⟨hpc, hd⟩)]
    rw [show { s with pc := s.pc + 2 } = s.advancePc from rfl]
    cases exec i s.advancePc with
    | next t => exact congrArg Host.Outcome.next t.tick_eq
    | fault f => rfl
    | refused r => rfl
  · rw [step_unknown hpc hd, State.tick_eq]
    rfl

/-- A successful step at an instruction ran it to a next state and ticked. -/
theorem step_next_instr {s t : State} {i : Instr} (hi : s.nextInstr = some i) (h : step s = .next t) :
    ∃ u, exec i s.advancePc = .next u ∧ t = u.tick :=
  finishStep_next ((step_instr hi).symm.trans h)

/-! ## What a step changes (10_state.md R18 to R23) -/

/-- A step changes the timer and what its instruction may write; the pc advance is counted in the old state. -/
theorem step_keeps {s t : State} (h : step s = .next t) :
    KeepsAllBut (fun c => c = .timer ∨ ∃ i, s.nextInstr = some i ∧ Writes s.advancePc i c) s.advancePc t := by
  obtain ⟨i, u, hi, hu, rfl⟩ | ⟨-, rfl⟩ := step_next h
  · exact ((exec_keeps hu).mono fun _ hc => .inr ⟨i, hi, hc⟩).trans ((tick_keeps u).mono fun _ => .inl)
  · exact (tick_keeps s.advancePc).mono fun _ => .inl

/-- A part that only the instructions of a class may write is kept by a step that runs none of the class. -/
theorem step_same {s t : State} {c : Component} {writer : Instr → Bool} (h : step s = .next t) (htimer : c ≠ .timer)
    (hwriter : ∀ i, Writes s.advancePc i c → writer i = true)
    (hno : ∀ i, s.nextInstr = some i → writer i = false) : c.same s.advancePc t := by
  refine step_keeps h c ?_
  rintro (hc | ⟨i, hi, hw⟩)
  · exact htimer hc
  · exact Bool.false_ne_true ((hno i hi).symm.trans (hwriter i hw))

section
variable {s : State} {i : Instr}

theorem setsAddr_of_writes (h : Writes s i .addr) : i.setsAddr = true := by
  cases i <;> simp_all [Writes, Instr.setsAddr]

theorem setsStack_of_writes_sp (h : Writes s i .sp) : i.setsStack = true := by
  cases i <;> simp_all [Writes, Instr.setsStack]

theorem setsStack_of_writes_slot {j : Fin 16} (h : Writes s i (.slot j)) : i.setsStack = true := by
  cases i <;> simp_all [Writes, Instr.setsStack]

theorem setsDisplay_of_writes {x : Fin 64} {y : Fin 32} (h : Writes s i (.pixel x y)) : i.setsDisplay = true := by
  cases i <;> simp_all [Writes, Instr.setsDisplay]

theorem storesBytes_of_writes {a : Nat} (h : Writes s i (.byte a)) : i.storesBytes = true := by
  cases i <;> simp_all [Writes, Instr.storesBytes]

theorem setsPc_of_writes (h : Writes s i .pc) : i.setsPc = true := by
  cases i <;> simp_all [Writes, Instr.setsPc]

theorem drawsByte_of_writes (h : Writes s i .draws) : i.drawsByte = true := by
  cases i <;> simp_all [Writes, Instr.drawsByte]

theorem exists_ldDtVx_of_writes (h : Writes s i .timer) : ∃ x, i = .ldDtVx x := by
  cases i <;> simp_all [Writes]

end

/-- Settles O16: each part is written by the instructions of its class only, and the advance leaves pc 2 further. -/
theorem partsChangeOnlyByTheirInstructions : Obligations.PartsChangeOnlyByTheirInstructions := fun _ _ h =>
  ⟨step_same (c := .addr) h nofun fun _ => setsAddr_of_writes,
    fun hno => ⟨step_same (c := .sp) h nofun (fun _ => setsStack_of_writes_sp) hno,
      fun j => step_same (c := .slot j) h nofun (fun _ => setsStack_of_writes_slot) hno⟩,
    fun hno x y => step_same (c := .pixel x y) h nofun (fun _ => setsDisplay_of_writes) hno,
    fun hno a => step_same (c := .byte a) h nofun (fun _ => storesBytes_of_writes) hno,
    step_same (c := .pc) h nofun fun _ => setsPc_of_writes,
    step_same (c := .draws) h nofun fun _ => drawsByte_of_writes⟩

/-! ## The timer (45_timer.md) -/

theorem State.tick_timer_toNat (s : State) : s.tick.timer.toNat = s.timer.toNat - 1 := by
  rw [State.tick_timer]
  split
  case isTrue h => rw [h]; rfl
  case isFalse h =>
    have hone : 1 ≤ s.timer := BitVec.le_def.mpr (Nat.pos_of_ne_zero fun e => h (BitVec.eq_of_toNat_eq e))
    exact BitVec.toNat_sub_of_le hone

theorem exec_ldDtVx (x : Reg) (s : State) : exec (.ldDtVx x) s = .next (s.setTimer (s.reg x)) := rfl

theorem exec_ldVxDt (x : Reg) (s : State) : exec (.ldVxDt x) s = .next (s.setReg x s.timer) := rfl

/-- The step ticks the timer that its execution left: the old one, unless it ran Fx15. -/
theorem step_timer_toNat {s t : State} (h : step s = .next t) (hno : ∀ x, s.nextInstr ≠ some (.ldDtVx x)) :
    t.timer.toNat = s.timer.toNat - 1 := by
  obtain ⟨i, u, hi, hu, rfl⟩ | ⟨-, rfl⟩ := step_next h
  · have hsame : u.timer = s.timer := by
      refine exec_keeps hu .timer fun hw => ?_
      obtain ⟨x, rfl⟩ := exists_ldDtVx_of_writes hw
      exact hno x hi
    rw [State.tick_timer_toNat, hsame]
  · exact s.advancePc.tick_timer_toNat

/-- Settles O9: Fx15 leaves V[x] in the timer for the tick, Fx07 copies the timer before it. -/
theorem timerCountsSteps : Obligations.TimerCountsSteps := by
  intro s t h
  refine ⟨fun x hx => ?_, step_timer_toNat h, fun x hx => ?_⟩
  · obtain ⟨u, hu, rfl⟩ := step_next_instr hx h
    rw [exec_ldDtVx] at hu
    cases hu
    exact State.tick_timer_toNat _
  · obtain ⟨u, hu, rfl⟩ := step_next_instr hx h
    rw [exec_ldVxDt] at hu
    cases hu
    exact (tick_keeps _ (.reg x) nofun).trans (State.setReg_reg_same _ x _)

/-! ## The faults (60_exceptions.md R119) -/

/-- An instruction whose only fault is a range check `c` on memory. -/
theorem exec_eq_fault_iff_of_rangeCheck (i : Instr) {s t : State} {f : Fault} {c : Prop} [Decidable c]
    (hi : i.setsStack = false) (h : exec i s = if c then .next t else .fault .memoryOutOfRange) :
    exec i s = .fault f ↔
      (f = .memoryOutOfRange ∧ ¬ c) ∨ f = .stackOverflow ∧ i.setsStack = true ∧ 16 < s.sp.toNat := by
  rw [h, hi]
  by_cases hc : c <;> simp [hc, eq_comm]

theorem exec_call_eq_fault_iff {nnn : Addr12} {s : State} {f : Fault} :
    exec (.call nnn) s = .fault f ↔ f = .stackOverflow ∧ 16 ≤ s.sp.toNat := by
  rcases Nat.lt_or_ge s.sp.toNat 16 with h | h
  · simp [exec_call_ok nnn h, Nat.not_le.mpr h]
  · simp [exec_call_full nnn h, h, eq_comm]

theorem exec_ret_eq_fault_iff {s : State} {f : Fault} :
    exec .ret s = .fault f ↔ f = .stackUnderflow ∧ s.sp.toNat = 0 ∨ f = .stackOverflow ∧ 16 < s.sp.toNat := by
  change execRet s = .fault f ↔ _
  obtain ⟨h0, hr⟩ | ⟨hlt, h0, hr⟩ | ⟨hgt, hr⟩ := execRet_cases s
  · simp [hr, h0, eq_comm]
  · have hne : s.sp.toNat ≠ 0 := fun e => h0 (BitVec.eq_of_toNat_eq e)
    have hle : ¬ 16 < s.sp.toNat := by omega
    simp [hr, hne, hle]
  · have hne : s.sp.toNat ≠ 0 := by omega
    simp [hr, hne, hgt, eq_comm]

/-- An instruction faults as R119 says; beyond it, with sp above 16, 2nnn and 00EE raise StackOverflow (log entry 5). -/
theorem exec_eq_fault_iff {i : Instr} {s : State} {f : Fault} :
    exec i s = .fault f ↔ instrFaults s i f ∨ f = .stackOverflow ∧ i.setsStack = true ∧ 16 < s.sp.toNat := by
  cases i with
  | call nnn =>
    rw [exec_call_eq_fault_iff, instrFaults, Nat.le_iff_lt_or_eq]
    simp only [Instr.setsStack]
    tauto
  | ret =>
    rw [exec_ret_eq_fault_iff]
    simp [instrFaults, Instr.setsStack]
  | drw x y n =>
    refine (exec_eq_fault_iff_of_rangeCheck (.drw x y n) rfl (drawUnder_eq aliasMode x y n s)).trans
      (or_congr_left (and_congr_right fun _ => ?_))
    omega
  | ldB x =>
    refine (exec_eq_fault_iff_of_rangeCheck (.ldB x) rfl (execLdB_eq x s)).trans
      (or_congr_left (and_congr_right fun _ => ?_))
    omega
  | storeRegs x =>
    refine (exec_eq_fault_iff_of_rangeCheck (.storeRegs x) rfl (execStoreRegs_eq x s)).trans
      (or_congr_left (and_congr_right fun _ => ?_))
    omega
  | loadRegs x =>
    refine (exec_eq_fault_iff_of_rangeCheck (.loadRegs x) rfl (execLoadRegs_eq x s)).trans
      (or_congr_left (and_congr_right fun _ => ?_))
    omega
  | _ => exact iff_of_false nofun (by simp [instrFaults, Instr.setsStack])

/-- The conditions of R119 do not look at pc. -/
theorem instrFaults_advancePc (s : State) (i : Instr) (f : Fault) :
    instrFaults s.advancePc i f ↔ instrFaults s i f := by
  cases i <;> exact Iff.rfl

theorem not_instrFaults_illegalOpcode (s : State) (i : Instr) : ¬ instrFaults s i .illegalOpcode := by
  cases i <;> simp [instrFaults]

theorem step_eq_fault_iff {s : State} (hsp : s.sp.toNat ≤ 16) (f : Fault) :
    step s = .fault f ↔
      0xFFF ≤ s.pc.toNat ∧ f = .memoryOutOfRange ∨ ∃ i, s.nextInstr = some i ∧ instrFaults s i f := by
  obtain ⟨hpc, hn, hs⟩ | ⟨i, hi, hs⟩ | ⟨u, hpc, -, hn, hs⟩ := step_cases s
  · simp [hs, hn, hpc, eq_comm]
  · obtain ⟨hpc, -⟩ := State.nextInstr_eq_some.mp hi
    rw [hs, finishStep_fault, exec_eq_fault_iff, instrFaults_advancePc]
    simp [hi, Nat.not_lt.mpr hsp, Nat.not_le.mpr hpc]
  · simp [hs, hn, Nat.not_le.mpr hpc]

theorem State.load_eq_error_iff (s : State) (bytes : List Byte) (base : Nat) (f : Fault) :
    s.load bytes base = .error f ↔ f = .imageTooLarge ∧ base + bytes.length > 4096 := by
  rcases Nat.lt_or_ge 4096 (base + bytes.length) with h | h
  · simp [State.load_too_large h, h, eq_comm]
  · simp [State.load_fits h, Nat.not_lt.mpr h]

/-- Under the policy `fault` an unknown word, and nothing else, raises IllegalOpcode: no instruction does. -/
theorem stepUnder_fault_eq_illegalOpcode_iff (s : State) :
    stepUnder .fault s = .fault .illegalOpcode ↔ s.pc.toNat < 0xFFF ∧ ∃ u, decode s.wordAtPc = .error u := by
  by_cases hpc : s.pc.toNat < 0xFFF
  · rw [stepUnder_eq, if_pos hpc, finishStep_fault, execWord]
    cases decode s.wordAtPc with
    | error u => exact iff_of_true rfl ⟨hpc, u, rfl⟩
    | ok i =>
      have hno := not_instrFaults_illegalOpcode s.advancePc i
      simp [exec_eq_fault_iff, hno]
  · simp [stepUnder_eq, hpc]

/-- Settles O10, from the faults of an instruction, of a load and of the policy `fault`. -/
theorem faultsExactlyWhen : Obligations.FaultsExactlyWhen :=
  ⟨fun _ => step_eq_fault_iff, State.load_eq_error_iff, stepUnder_fault_eq_illegalOpcode_iff⟩

/-! ## The idle loop (R78, R135) -/

theorem State.atIdleLoop_iff {s : State} :
    s.atIdleLoop = true ↔ ∃ nnn, s.nextInstr = some (.jp nnn) ∧ zextAddr nnn = s.pc := by
  unfold State.atIdleLoop
  rw [State.fetch_wordAtPc]
  by_cases hpc : s.pc.toNat < 0xFFF
  · rw [if_pos hpc]
    cases hd : decode s.wordAtPc with
    | error u => simp [State.nextInstr_eq_some, hd]
    | ok i => cases i <;> simp [State.nextInstr_eq_some, hd, hpc]
  · simp [State.nextInstr_eq_some, hpc]

/-- The next instruction depends on pc and memory only. -/
theorem State.nextInstr_congr {s t : State} (hpc : t.pc = s.pc) (hmem : t.mem = s.mem) : t.nextInstr = s.nextInstr := by
  simp only [State.nextInstr, State.wordAtPc, hpc, hmem]

/-- Settles O17: the jump takes back the pc advance, so the step is the tick alone. -/
theorem selfJumpIdles : Obligations.SelfJumpIdles := by
  intro s hidle
  obtain ⟨nnn, hjp, htarget⟩ := State.atIdleLoop_iff.mp hidle
  have hstep : step s = .next s.tick := by
    rw [step_instr hjp, exec_jp, htarget]
    rfl
  refine ⟨s.tick, hstep, tick_keeps s, State.atIdleLoop_iff.mpr ⟨nnn, ?_, ?_⟩⟩
  · rw [State.tick_eq]
    exact hjp
  · rw [State.tick_eq]
    exact htarget

/-! ## The random source (R77) -/

/-- The state with another next draw. -/
def State.withDraws (s : State) (k : Nat) : State := { s with draws := k }

/-- The same outcome with another next draw. -/
def redraw (k : Nat) : Result → Result
  | .next s => .next (s.withDraws k)
  | .fault f => .fault f
  | .refused r => .refused r

theorem redraw_ite (k : Nat) {c : Prop} [Decidable c] (s : State) (f : Fault) :
    redraw k (if c then .next s else .fault f) = if c then .next (s.withDraws k) else .fault f :=
  apply_ite (redraw k) c _ _

theorem redraw_dite (k : Nat) {c : Prop} [Decidable c] (s : c → State) (f : Fault) :
    redraw k (if h : c then .next (s h) else .fault f) = if h : c then .next ((s h).withDraws k) else .fault f :=
  apply_dite (redraw k) c _ _

theorem State.loadRegsFrom_withDraws (s : State) (k r : Nat) (bs : List Byte) :
    (s.withDraws k).loadRegsFrom r bs = (s.loadRegsFrom r bs).withDraws k := by
  induction bs generalizing s r with
  | nil => rfl
  | cons b bs ih => exact ih (s.setReg (Fin.ofNat 16 r) b) (r + 1)

theorem State.tick_withDraws (s : State) (k : Nat) : (s.withDraws k).tick = s.tick.withDraws k := by
  rw [State.tick_eq, State.tick_eq]
  rfl

theorem State.pop_overfull {s : State} (h : 16 < s.sp.toNat) : s.pop = .error .stackOverflow := by
  obtain ⟨h0, -⟩ | ⟨hlt, -, -⟩ | ⟨-, hpop⟩ := s.pop_cases
  · rw [h0] at h
    exact absurd h (by decide)
  · omega
  · exact hpop

theorem execRet_withDraws (s : State) (k : Nat) : execRet (s.withDraws k) = redraw k (execRet s) := by
  obtain ⟨h0, h⟩ | ⟨hlt, h0, h⟩ | ⟨hgt, h⟩ := execRet_cases s
  · rw [h, execRet, State.pop_empty (s := s.withDraws k) h0]
    rfl
  · rw [h, execRet, State.pop_ok (s := s.withDraws k) h0 hlt]
    rfl
  · rw [h, execRet, State.pop_overfull (s := s.withDraws k) hgt]
    rfl

theorem skipIf_withDraws (c : Bool) (s : State) (k : Nat) : skipIf c (s.withDraws k) = redraw k (skipIf c s) := by
  cases c <;> rfl

/-- Every instruction but Cxkk does the same whatever the next draw is. -/
theorem exec_withDraws {i : Instr} (hi : i.drawsByte = false) (s : State) (k : Nat) :
    exec i (s.withDraws k) = redraw k (exec i s) := by
  cases i with
  | rnd x kk => cases hi
  | ret => exact execRet_withDraws s k
  | call nnn =>
    exact (execCall_eq nnn _).trans ((congrArg (redraw k) (execCall_eq nnn s)).trans (redraw_dite ..)).symm
  | seImm _ _ | sneImm _ _ | seReg _ _ | sneReg _ _ => exact skipIf_withDraws _ s k
  | drw x y n =>
    exact (drawUnder_eq ..).trans ((congrArg (redraw k) (drawUnder_eq aliasMode x y n s)).trans (redraw_ite ..)).symm
  | ldB x => exact (execLdB_eq x _).trans ((congrArg (redraw k) (execLdB_eq x s)).trans (redraw_ite ..)).symm
  | storeRegs x =>
    exact (execStoreRegs_eq x _).trans ((congrArg (redraw k) (execStoreRegs_eq x s)).trans (redraw_ite ..)).symm
  | loadRegs x =>
    have hloaded := execLoadRegs_eq x (s.withDraws k)
    rw [State.loadRegsFrom_withDraws] at hloaded
    exact hloaded.trans ((congrArg (redraw k) (execLoadRegs_eq x s)).trans (redraw_ite ..)).symm
  | _ => rfl

theorem finishStep_redraw (k : Nat) (r : Result) : finishStep (redraw k r) = redraw k (finishStep r) := by
  cases r with
  | next s => exact congrArg Host.Outcome.next (s.tick_withDraws k)
  | fault f => rfl
  | refused r => rfl

/-- A step that does not draw does the same whatever the next draw is. -/
theorem step_withDraws {s : State} (hno : ∀ i, s.nextInstr = some i → i.drawsByte = false) (k : Nat) :
    step (s.withDraws k) = redraw k (step s) := by
  obtain ⟨hpc, -, hs⟩ | ⟨i, hi, hs⟩ | ⟨u, hpc, hd, -, hs⟩ := step_cases s
  · rw [hs]
    exact step_out (s := s.withDraws k) hpc
  · have hi' : (s.withDraws k).nextInstr = some i := hi
    rw [hs, step_instr hi', ← finishStep_redraw, ← exec_withDraws (hno i hi)]
    rfl
  · rw [hs]
    exact (step_unknown (s := s.withDraws k) hpc hd).trans
      (congrArg Host.Outcome.next (s.advancePc.tick_withDraws k))

/-- Settles O15: `redraw` is the outcome with the draw replaced, and Cxkk is the one instruction that draws. -/
theorem drawsMatterToRndOnly : Obligations.DrawsMatterToRndOnly := by
  intro s k hno
  have hdraws : ∀ i, s.nextInstr = some i → i.drawsByte = false := by
    intro i hi
    cases i with
    | rnd x kk => exact absurd hi (hno x kk)
    | _ => rfl
  refine (step_withDraws hdraws k).trans ?_
  cases step s <;> rfl

end Sys2Proof.Machine
end

section
/-! PROOFS. Canonical memories, the host's load, the first word after a boot, a placed word, and the host's ports
(spec 10_state.md R23, R31; 70_reset_and_hazards.md R140 to R142; 60_exceptions.md R131). -/

namespace Sys2Proof.Machine

/-! ## Canonical memories -/

/-- A canonical memory lists an address exactly when it reads there as an unlisted address does not; so the list is
read off, entry by entry, from below. -/
theorem Memory.eq_of_get {m m' : Memory} {lo : Nat} (hm : m.wfFrom lo = true) (hm' : m'.wfFrom lo = true)
    (h : ∀ a, m.get a = m'.get a) : m = m' := by
  induction m generalizing m' lo with
  | nil =>
    cases m' with
    | nil => rfl
    | cons p' m' =>
      obtain ⟨k', c'⟩ := p'
      obtain ⟨-, -, hc', -⟩ := Memory.wfFrom_cons.mp hm'
      exact absurd (h k') (by simpa [Memory.get] using hc'.symm)
  | cons p m ih =>
    obtain ⟨k, c⟩ := p
    obtain ⟨hlo, hk, hc, hrest⟩ := Memory.wfFrom_cons.mp hm
    cases m' with
    | nil => exact absurd (h k) (by simpa [Memory.get] using hc)
    | cons p' m' =>
      obtain ⟨k', c'⟩ := p'
      obtain ⟨hlo', hk', hc', hrest'⟩ := Memory.wfFrom_cons.mp hm'
      have hkk : k = k' := by
        rcases Nat.lt_trichotomy k k' with hlt | heq | hgt
        · have hbelow := Memory.get_below hlt (Memory.wfFrom_cons.mpr ⟨le_rfl, hk', hc', hrest'⟩)
          exact absurd ((h k).trans hbelow) (by simpa [Memory.get] using hc)
        · exact heq
        · have hbelow := Memory.get_below hgt (Memory.wfFrom_cons.mpr ⟨le_rfl, hk, hc, hrest⟩)
          exact absurd ((h k').symm.trans hbelow) (by simpa [Memory.get] using hc')
      subst hkk
      have hcc : c = c' := by simpa [Memory.get] using h k
      subst hcc
      refine congrArg _ (ih hrest hrest' fun a => ?_)
      by_cases hak : a = k
      · subst hak
        rw [Memory.get_below (Nat.lt_succ_self a) hrest, Memory.get_below (Nat.lt_succ_self a) hrest']
      · simpa [Memory.get, hak] using h a

/-- Settles O26: `Memory.eq_of_get` from address 0 on. -/
theorem canonicalMemoryIsUnique : Obligations.CanonicalMemoryIsUnique := fun _ _ => Memory.eq_of_get

/-! ## Load (R140, R141) -/

/-- Settles O31: an image that does not fit is refused whole, one that fits is one block write. -/
theorem loadIsAllOrNothing : Obligations.LoadIsAllOrNothing := by
  intro fontBytes s bytes base
  refine ⟨fun h => ?_, fun h => ?_⟩
  · rw [transact, State.load_too_large h]
  · refine ⟨{ s with mem := s.mem.setBytes base bytes }, ?_, fun k => s.mem.get_setBytes_inside,
      setBytes_keeps s base bytes⟩
    rw [transact, State.load_fits h]

/-! ## The first word after a boot, and a placed word -/

/-- With a word's two bytes stored at a pc in range, the next fetch reads the word. -/
theorem State.wordAtPc_setBytes {s : State} {b0 b1 : Byte} {rest : List Byte} (m : Memory)
    (hmem : s.mem = m.setBytes s.pc.toNat (b0 :: b1 :: rest)) : s.wordAtPc = wordOfBytes b0 b1 := by
  have h0 : s.mem.get s.pc.toNat = b0 := hmem ▸ m.get_setBytes_inside (k := 0) (by simp)
  have h1 : s.mem.get (s.pc.toNat + 1) = b1 := hmem ▸ m.get_setBytes_inside (k := 1) (by simp)
  rw [State.wordAtPc, h0, h1]

/-- Reset and then a load at 0x200 of an image that fits: the reset state with the image written. -/
theorem transactAll_reset_load (fontBytes : Vector Byte 80) (s : State) {bytes : List Byte}
    (h : bytes.length ≤ 3584) :
    transactAll fontBytes s [.reset none, .load bytes] =
      ({ s.restart fontBytes with mem := (s.restart fontBytes).mem.setBytes 0x200 bytes }, [.none, .ok]) := by
  have hfits : Config.programBase + bytes.length ≤ 4096 := by
    change 512 + bytes.length ≤ 4096
    omega
  simp only [transactAll, transact, State.load_fits hfits]
  rfl

/-- Settles O18: reset sets pc to 0x200, where the load then puts the image's first two bytes. -/
theorem bootRunsTheFirstWord : Obligations.BootRunsTheFirstWord := by
  intro fontBytes s b0 b1 rest i hlen hi
  rw [transactAll_reset_load fontBytes s (bytes := b0 :: b1 :: rest) hlen]
  refine ⟨rfl, rfl, State.nextInstr_eq_some.mpr ⟨?_, ?_⟩⟩
  · change (0x200 : Word).toNat < 0xFFF
    decide
  · rw [State.wordAtPc_setBytes (s.restart fontBytes).mem rfl, hi]

theorem tableBytes_toNat (w : Word) : tableBytes 16 w.toNat = [highByte w, lowByte w] := by
  have hw : BitVec.ofNat 16 (w.toNat % 2 ^ 16) = w := by
    rw [Nat.mod_eq_of_lt w.isLt, BitVec.ofNat_toNat, BitVec.setWidth_eq]
  simp only [tableBytes, hw]

theorem decodeTableWord_encode (i : Instr) : decodeTableWord 16 (encode i).toNat = some i := by
  simp only [decodeTableWord, decodeBytes, tableBytes_toNat, wordOfBytes_high_low, decode_encode]

theorem State.withFetchWord_eq (s : State) (w : Word) : s.withFetchWord 16 w.toNat =
    { s with
      pc := if s.pc.toNat + 1 < 4096 then s.pc else 0x200
      mem := s.mem.setBytes (if s.pc.toNat + 1 < 4096 then s.pc else 0x200).toNat [highByte w, lowByte w] } := by
  rw [← tableBytes_toNat]
  rfl

/-- The placed word stands at a pc where a fetch succeeds. -/
theorem State.nextInstr_withFetchWord (s : State) (i : Instr) :
    (s.withFetchWord 16 (encode i).toNat).nextInstr = some i := by
  rw [State.withFetchWord_eq, State.nextInstr_eq_some, State.wordAtPc_setBytes s.mem rfl, wordOfBytes_high_low]
  refine ⟨?_, decode_encode i⟩
  dsimp only
  split
  · omega
  · decide

theorem State.withFetchWord_keeps {s : State} (w : Word) (hpc : s.pc.toNat < 0xFFF) :
    KeepsAllBut (fun c => c = .byte s.pc.toNat ∨ c = .byte (s.pc.toNat + 1)) s (s.withFetchWord 16 w.toNat) := by
  have hin : s.pc.toNat + 1 < 4096 := by omega
  rw [State.withFetchWord_eq, if_pos hin]
  refine (setBytes_keeps s s.pc.toNat [highByte w, lowByte w]).mono ?_
  rintro c ⟨k, hk, rfl⟩
  match k, hk with
  | 0, _ => exact .inl rfl
  | 1, _ => exact .inr rfl

/-- Settles O19, clause by clause: the row's word, the next instruction, and the two bytes placed. -/
theorem placedWordIsFetched : Obligations.PlacedWordIsFetched := fun s i =>
  ⟨decodeTableWord_encode i, s.nextInstr_withFetchWord i, State.withFetchWord_keeps (encode i)⟩

/-! ## The reset state and the host's ports (R31, R131) -/

/-- Settles O29: reset memory reads as FONT and zeros, and every other field is State.reset's. -/
theorem resetStateHoldsFontAndZeros : Obligations.ResetStateHoldsFontAndZeros := fun fontBytes =>
  isResetFor_of_get (State.resetWith_get fontBytes) State.reset.draws

/-- The index y*64 + x of a pixel gives its row and its column back (R22). -/
theorem State.pixel_index (s : State) (x : Fin 64) (y : Fin 32) (h : y.val * 64 + x.val < 2048) :
    s.pixel ⟨y.val * 64 + x.val, h⟩ = s.pixelAt x y := by
  have hx : Fin.ofNat 64 (y.val * 64 + x.val) = x := Fin.ext (by simp only [Fin.val_ofNat]; omega)
  have hy : Fin.ofNat 32 ((y.val * 64 + x.val) / 64) = y := Fin.ext (by simp only [Fin.val_ofNat]; omega)
  rw [State.pixel, hx, hy]

theorem State.pixels_getElem? (s : State) (x : Fin 64) (y : Fin 32) :
    s.pixels[y.val * 64 + x.val]? = some (s.pixelAt x y) := by
  have hk : y.val * 64 + x.val < 2048 := by omega
  simp [State.pixels, hk, State.pixel_index]

theorem State.inspection_mem_getElem? (s : State) {a : Nat} (ha : a < 4096) :
    s.inspection.mem[a]? = some (s.mem.get a) := by
  simp [State.inspection, Config.memSize, ha]

theorem State.pixels_length (s : State) : s.pixels.length = 2048 := by
  rw [State.pixels, List.length_map, List.length_finRange]

theorem State.inspection_mem_length (s : State) : s.inspection.mem.length = 4096 := by
  rw [State.inspection, List.length_map, List.length_range, Config.memSize]

theorem State.inspection_disp (s : State) : s.inspection.disp = s.pixels := by
  rw [State.inspection]

/-- Settles O32: both ports answer from the state and give it back. -/
theorem hostPortsOnlyRead : Obligations.HostPortsOnlyRead := by
  intro fontBytes s
  refine ⟨rfl, rfl, s.pixels_length, s.pixels_getElem?, s.inspection_mem_length,
    fun _ => s.inspection_mem_getElem?, rfl, rfl, rfl, rfl, rfl, rfl, s.inspection_disp⟩

end Sys2Proof.Machine
end

section
/-! PROOFS. OR, the random byte, the timer and the block transfers, call and return, and the table of operands in VF
(spec 43_alu.md R95 to R107, 44_index_memory.md R110 to R114, 45_timer.md R116, R117). -/

namespace Sys2Proof.Machine

/-! ## One register write, or one write of I or the timer -/

theorem exec_or (x y : Reg) (s : State) : exec (.or x y) s = .next (s.setReg x (s.reg x ||| s.reg y)) := rfl

/-- Settles O38: 8xy1 is one register write, of the OR of the old V[x] and V[y]. -/
theorem orIsBitwise : Obligations.OrIsBitwise := by
  intro x y s
  refine ⟨formatXYN_group8_toNat x y 0x1, _, exec_or x y s, fun _ => s.setReg_reg_other _, ?_⟩
  rw [State.setReg_reg_same]
  refine ⟨fun _ => BitVec.getLsbD_or, ?_⟩
  rintro rfl
  exact BitVec.or_self

/-- Settles O43: Cxkk is one register write, of the masked draw, and one draw used up. -/
theorem rndMasksADraw : Obligations.RndMasksADraw := by
  intro x kk s
  refine ⟨formatXKK_toNat 0xC x kk, _, _, exec_rnd x kk s, rfl, ?_⟩
  rw [State.nextDraw_reg, State.setReg_reg_same]
  refine ⟨rfl, ?_, ?_, fun b hb => ?_, fun _ => s.setReg_reg_other _, rfl⟩
  · rintro rfl
    exact BitVec.and_zero
  · rintro rfl
    exact BitVec.and_allOnes
  · rw [BitVec.getLsbD_and, hb, Bool.and_false]

theorem exec_addI (x : Reg) (s : State) : exec (.addI x) s = .next (s.setI (s.i + zextByte (s.reg x))) := rfl

/-- Settles O51: the 16-bit sum is the sum modulo 65536, and a write of I keeps every register. -/
theorem addIWrapsAtSixteenBits : Obligations.AddIWrapsAtSixteenBits := by
  intro x s
  refine ⟨formatXS_groupF_toNat x 0x1E, _, exec_addI x s, ?_, s.setI_reg _⟩
  rw [State.setI_i, BitVec.toNat_add, zextByte_toNat]

/-- Settles O55: Fx07 is one register write, Fx15 one timer write. -/
theorem timerReadAndWrite : Obligations.TimerReadAndWrite := fun x s =>
  ⟨formatXS_groupF_toNat x 0x07, formatXS_groupF_toNat x 0x15,
    ⟨_, exec_ldVxDt x s, s.setReg_reg_same x _, rfl, fun _ => s.setReg_reg_other _⟩,
    ⟨_, exec_ldDtVx x s, rfl, s.setTimer_reg _⟩⟩

/-! ## The block transfers (R113, R114) -/

theorem exec_storeRegs_in {x : Reg} {s : State} (h : s.i.toNat + x.val < 4096) :
    exec (.storeRegs x) s = .next { s with mem := s.mem.setBytes s.i.toNat (s.regsUpTo x) } :=
  (execStoreRegs_eq x s).trans (if_pos h)

theorem exec_storeRegs_out {x : Reg} {s : State} (h : 4096 ≤ s.i.toNat + x.val) :
    exec (.storeRegs x) s = .fault .memoryOutOfRange :=
  (execStoreRegs_eq x s).trans (if_neg (Nat.not_lt.mpr h))

theorem exec_loadRegs_in {x : Reg} {s : State} (h : s.i.toNat + x.val < 4096) :
    exec (.loadRegs x) s = .next (s.loadRegsFrom 0 (s.bytesAt s.i.toNat (x.val + 1))) :=
  (execLoadRegs_eq x s).trans (if_pos h)

theorem exec_loadRegs_out {x : Reg} {s : State} (h : 4096 ≤ s.i.toNat + x.val) :
    exec (.loadRegs x) s = .fault .memoryOutOfRange :=
  (execLoadRegs_eq x s).trans (if_neg (Nat.not_lt.mpr h))

/-- The stored block holds V[r] at r. -/
theorem State.get_setBytes_regsUpTo (s : State) (a : Nat) {x r : Reg} (hr : r ≤ x) :
    (s.mem.setBytes a (s.regsUpTo x)).get (a + r.val) = s.reg r := by
  have hk : r.val < (s.regsUpTo x).length := by
    rw [State.regsUpTo_length]
    exact Nat.lt_succ_of_le hr
  rw [Memory.get_setBytes_inside s.mem hk, State.regsUpTo_getElem]

/-- The loaded block gives V[r] the byte at r for every r up to x, and leaves the registers above x. -/
theorem State.loadRegsFrom_bytesAt_reg (s : State) (a : Nat) (x r : Reg) :
    (s.loadRegsFrom 0 (s.bytesAt a (x.val + 1))).reg r = if r ≤ x then s.mem.get (a + r.val) else s.reg r := by
  rw [State.loadRegsFrom_reg (by rw [State.bytesAt_length]; omega), if_pos (Nat.zero_le _), Nat.sub_zero]
  by_cases hr : r ≤ x
  · have hk : r.val < (s.bytesAt a (x.val + 1)).length := by
      rw [State.bytesAt_length]
      exact Nat.lt_succ_of_le hr
    rw [if_pos hr, List.getElem?_eq_getElem hk, State.bytesAt_getElem, Option.getD_some]
  · have hk : (s.bytesAt a (x.val + 1)).length ≤ r.val := by
      rw [State.bytesAt_length]
      exact not_le.mp hr
    rw [if_neg hr, List.getElem?_eq_none hk, Option.getD_none]

/-- Settles O53: in range Fx55 is one block write of V0 to V[x]; else it is the fault. -/
theorem storeRegsWritesTheBlock : Obligations.StoreRegsWritesTheBlock := fun x s =>
  ⟨formatXS_groupF_toNat x 0x55,
    fun h => ⟨_, exec_storeRegs_in h, fun _ => s.get_setBytes_regsUpTo s.i.toNat, rfl, fun _ => rfl⟩,
    exec_storeRegs_out⟩

/-- Settles O54: in range Fx65 is one block load of the bytes at I; else it is the fault. -/
theorem loadRegsReadsTheBlock : Obligations.LoadRegsReadsTheBlock := by
  intro x s
  refine ⟨formatXS_groupF_toNat x 0x65, fun h => ?_, exec_loadRegs_out⟩
  refine ⟨_, exec_loadRegs_in h, s.loadRegsFrom_bytesAt_reg s.i.toNat x, ?_⟩
  rw [State.loadRegsFrom_only_v]

/-! ## Call and return (42_control_flow.md) -/

/-- Settles O48: the call left its advanced pc in the slot at the old sp, which is the one the return reads. -/
theorem retUndoesCall : Obligations.RetUndoesCall := by
  intro nnn s t t' hcall hsp hstack
  rcases Nat.lt_or_ge s.sp.toNat 16 with hlt | hfull
  · rw [exec_call_ok nnn hlt] at hcall
    cases hcall
    have hslot : t'.slot ⟨s.sp.toNat, hlt⟩ = s.pc :=
      (State.slot_congr hstack _).trans ((State.slot_set_stack s s.pc hlt _).trans (if_pos rfl))
    have hdepth : t'.sp.toNat = s.sp.toNat + 1 := (congrArg BitVec.toNat hsp).trans (sp_add_one_toNat hlt)
    refine ⟨_, exec_ret_ok (j := ⟨s.sp.toNat, hlt⟩) hdepth, hslot, ?_⟩
    exact (congrArg (· - 1) hsp).trans (BitVec.add_sub_cancel s.sp 1)
  · rw [exec_call_full nnn hfull] at hcall
    cases hcall

/-! ## The table of operands in VF (R95) -/

theorem subWrap_eq_sub (a b : Byte) : subWrap a b = a - b := by
  have ha := a.isLt
  have hb := b.isLt
  apply BitVec.eq_of_toNat_eq
  rw [subWrap, BitVec.toNat_ofNat, BitVec.toNat_sub]
  omega

/-- The data result of 8xy5 and 8xy7, whichever operands are VF. -/
theorem subtractInto_reg_eq_sub (mode : Config.VfAliasMode) (x p q : Reg) (s : State) :
    (subtractInto mode x p q s).reg x =
      readAfterFlag mode p (s.reg p) (if (s.reg p).toNat > (s.reg q).toNat then 1 else 0) -
      readAfterFlag mode q (s.reg q) (if (s.reg p).toNat > (s.reg q).toNat then 1 else 0) := by
  rw [subtractInto, State.setFlagThenReg_reg_same, subWrap_eq_sub, noBorrowFlag_eq]

/-- The data result with the minuend in VF: `sequential` subtracts from the flag. -/
theorem subtractInto_minuend_VF (mode : Config.VfAliasMode) (x : Reg) {q : Reg} (s : State) (hq : q ≠ Reg.VF) :
    (subtractInto mode x Reg.VF q s).reg x =
      match mode with
      | .latched => s.reg Reg.VF - s.reg q
      | .sequential => (if (s.reg Reg.VF).toNat > (s.reg q).toNat then 1 else 0) - s.reg q := by
  rw [subtractInto_reg_eq_sub, readAfterFlag_of_ne mode _ _ hq]
  cases mode <;> rfl

/-- The data result with the subtrahend in VF: `sequential` subtracts the flag. -/
theorem subtractInto_subtrahend_VF (mode : Config.VfAliasMode) (x : Reg) {p : Reg} (s : State) (hp : p ≠ Reg.VF) :
    (subtractInto mode x p Reg.VF s).reg x =
      match mode with
      | .latched => s.reg p - s.reg Reg.VF
      | .sequential => s.reg p - (if (s.reg p).toNat > (s.reg Reg.VF).toNat then 1 else 0) := by
  rw [subtractInto_reg_eq_sub, readAfterFlag_of_ne mode _ _ hp]
  cases mode <;> rfl

theorem boolByte_shiftRight_one (b : Bool) : boolByte b >>> 1 = 0 := by
  cases b <;> rfl

/-- 8xy6 on VF: `sequential` shifts the flag, which is 0 or 1, out. -/
theorem shrUnder_VF (mode : Config.VfAliasMode) (s : State) :
    (shrUnder mode Reg.VF s).reg Reg.VF =
      match mode with
      | .latched => s.reg Reg.VF >>> 1
      | .sequential => 0 := by
  rw [shrUnder, State.setFlagThenReg_reg_same]
  cases mode with
  | latched => rfl
  | sequential => exact boolByte_shiftRight_one _

/-- 8xyE on VF: `sequential` shifts the flag. -/
theorem shlUnder_VF (mode : Config.VfAliasMode) (s : State) :
    (shlUnder mode Reg.VF s).reg Reg.VF =
      match mode with
      | .latched => s.reg Reg.VF <<< 1
      | .sequential => (if (s.reg Reg.VF).getLsbD 7 = true then 1 else 0 : Byte) <<< 1 := by
  rw [shlUnder, State.setFlagThenReg_reg_same]
  cases mode <;> rfl

/-- A coordinate read after VF was cleared: 0 if it is VF and the mode `sequential`, else the old value. -/
theorem readAfterFlag_zero_toNat (mode : Config.VfAliasMode) (r : Reg) (before : Byte) :
    (readAfterFlag mode r before 0).toNat = if r = Reg.VF ∧ mode = .sequential then 0 else before.toNat := by
  unfold readAfterFlag
  by_cases hr : r = Reg.VF <;> cases mode <;> simp [hr]

theorem spriteColumn_eq (mode : Config.VfAliasMode) (x : Reg) (s : State) :
    spriteColumn mode x s = (if x = Reg.VF ∧ mode = .sequential then 0 else (s.reg x).toNat) % 64 := by
  rw [spriteColumn, readAfterFlag_zero_toNat, Config.displayWidth]

theorem spriteRow_eq (mode : Config.VfAliasMode) (y : Reg) (s : State) :
    spriteRow mode y s = (if y = Reg.VF ∧ mode = .sequential then 0 else (s.reg y).toNat) % 32 := by
  rw [spriteRow, readAfterFlag_zero_toNat, Config.displayHeight]

/-- Settles O42, row by row: 8xy5 and 8xy7 are one subtraction, with VF as minuend or as subtrahend. -/
theorem aliasTableOfVF : Obligations.AliasTableOfVF := by
  intro mode x y s a b one
  refine ⟨?_, ?_, ?_, fun _ => subtractInto_flag mode x y s, ?_, ?_, ?_, fun _ => subtractInto_flag mode y x s, ?_, ?_,
    ?_, ?_⟩
  · rintro rfl
    exact ⟨rfl, rfl, rfl, rfl⟩
  · rintro rfl hy
    exact (subtractInto_minuend_VF mode Reg.VF s hy).trans (by cases mode <;> rfl)
  · rintro rfl hx
    exact (subtractInto_subtrahend_VF mode x s hx).trans (by cases mode <;> rfl)
  · rintro rfl
    exact (shrUnder_VF mode s).trans (by cases mode <;> rfl)
  · rintro rfl hy
    exact (subtractInto_subtrahend_VF mode Reg.VF s hy).trans (by cases mode <;> rfl)
  · rintro rfl hx
    exact (subtractInto_minuend_VF mode x s hx).trans (by cases mode <;> rfl)
  · rintro rfl
    exact (shlUnder_VF mode s).trans (by cases mode <;> rfl)
  · rintro rfl rfl
    obtain ⟨-, hzero⟩ := subtractInto_self mode Reg.VF Reg.VF s
    exact ⟨hzero, hzero⟩
  · rw [spriteColumn_eq, apply_ite (· % 64)]
  · rw [spriteRow_eq, apply_ite (· % 32)]

end Sys2Proof.Machine
end

section
/-! PROOFS. The pixels Dxyn toggles, and drawing twice (spec 41_display.md R80 to R84). -/

namespace Sys2Proof.Machine

/-! ## The pixels Dxyn toggles (R80 to R83) -/

theorem exec_drw_in (x y : Reg) {n : Fin 16} {s : State} (h : n.val = 0 ∨ s.i.toNat + n.val ≤ 4096) :
    exec (.drw x y n) s = .next (drawSprite aliasMode x y (s.bytesAt s.i.toNat n.val) s) :=
  (drawUnder_eq aliasMode x y n s).trans (if_pos h)

theorem exec_drw_out (x y : Reg) {n : Fin 16} {s : State} (h : ¬ (n.val = 0 ∨ s.i.toNat + n.val ≤ 4096)) :
    exec (.drw x y n) s = .fault .memoryOutOfRange :=
  (drawUnder_eq aliasMode x y n s).trans (if_neg h)

/-- The rows of a Dxyn are at most 15. -/
theorem State.bytesAt_sprite_length_le (s : State) (a : Nat) (n : Fin 16) : (s.bytesAt a n.val).length ≤ 32 := by
  rw [State.bytesAt_length]
  omega

/-- A pixel is drawn when a set bit of one of the n bytes at a covers it, wrapped. -/
theorem mem_drawnPoints_bytesAt {mode : Config.VfAliasMode} {x y : Reg} {s : State} {a n : Nat} {px : Fin 64}
    {py : Fin 32} :
    (px, py) ∈ drawnPoints mode x y (s.bytesAt a n) s ↔
      ∃ row col, row < n ∧ col < 8 ∧ (s.mem.get (a + row)).getLsbD (7 - col) = true ∧
        px.val = (spriteColumn mode x s + col) % 64 ∧ py.val = (spriteRow mode y s + row) % 32 := by
  simp only [drawnPoints, mem_spritePoints, State.bytesAt_getElem, State.bytesAt_length, exists_prop, Fin.ext_iff,
    Fin.val_ofNat, Nat.add_zero]
  constructor
  · rintro ⟨row, hrow, col, h⟩
    exact ⟨row, col, hrow, h⟩
  · rintro ⟨row, col, hrow, h⟩
    exact ⟨row, hrow, col, h⟩

theorem drawSprite_pixelAt_covered {mode : Config.VfAliasMode} {x y : Reg} {rows : List Byte} {s : State}
    (hlen : rows.length ≤ 32) {px : Fin 64} {py : Fin 32} (h : (px, py) ∈ drawnPoints mode x y rows s) :
    (drawSprite mode x y rows s).pixelAt px py = !s.pixelAt px py := by
  obtain ⟨hpixel, -⟩ := drawSprite_spec mode x y s hlen
  rw [hpixel, decide_eq_true h, Bool.xor_true]

theorem drawSprite_pixelAt_uncovered {mode : Config.VfAliasMode} {x y : Reg} {rows : List Byte} {s : State}
    (hlen : rows.length ≤ 32) {px : Fin 64} {py : Fin 32} (h : (px, py) ∉ drawnPoints mode x y rows s) :
    (drawSprite mode x y rows s).pixelAt px py = s.pixelAt px py := by
  obtain ⟨hpixel, -⟩ := drawSprite_spec mode x y s hlen
  rw [hpixel, decide_eq_false h, Bool.xor_false]

/-- Settles O57: the drawn points are the covered pixels; each toggles, and VF reports a set pixel among them. -/
theorem drwTogglesTheWrappedSprite : Obligations.DrwTogglesTheWrappedSprite := by
  intro x y n s start covered
  have hcovered (px : Fin 64) (py : Fin 32) :
      covered px py ↔ (px, py) ∈ drawnPoints aliasMode x y (s.bytesAt s.i.toNat n.val) s := by
    rw [mem_drawnPoints_bytesAt, spriteColumn_eq, spriteRow_eq]
  have hlen := s.bytesAt_sprite_length_le s.i.toNat n
  have hone := drawSprite_flag_eq_one_iff aliasMode x y s hlen
  refine ⟨?_, fun h => ⟨_, exec_drw_in x y h, fun px py hc => ?_, fun px py hc => ?_, hone.mpr, fun hno => ?_⟩,
    fun hn h => exec_drw_out x y (by omega)⟩
  · rw [encode, formatXYN_toNat]
    change 4096 * 13 + _ + _ + _ = _
    omega
  · exact drawSprite_pixelAt_covered hlen ((hcovered px py).mp hc)
  · exact drawSprite_pixelAt_uncovered hlen (mt (hcovered px py).mpr hc)
  · exact (drawSprite_flag_eq_zero_iff aliasMode x y s hlen).mpr (mt hone.mp hno)

/-! ## Drawing twice (R84) -/

section
variable {mode : Config.VfAliasMode} {x y : Reg} {rows : List Byte} {s : State}

theorem drawSprite_i : (drawSprite mode x y rows s).i = s.i := by
  rw [drawSprite_only]
  rfl

theorem drawSprite_bytesAt (a n : Nat) : (drawSprite mode x y rows s).bytesAt a n = s.bytesAt a n := by
  rw [drawSprite_only]
  rfl

theorem drawSprite_reg_other {r : Reg} (hr : r ≠ Reg.VF) : (drawSprite mode x y rows s).reg r = s.reg r := by
  rw [drawSprite_only]
  exact s.setReg_reg_other _ hr

/-- With no coordinate in VF, a draw leaves where the same draw would draw again. -/
theorem drawnPoints_drawSprite (hx : x ≠ Reg.VF) (hy : y ≠ Reg.VF) :
    drawnPoints mode x y rows (drawSprite mode x y rows s) = drawnPoints mode x y rows s := by
  simp only [drawnPoints, spriteColumn, spriteRow, drawSprite_reg_other hx, drawSprite_reg_other hy]

/-- The second draw toggles the same points back. -/
theorem drawSprite_twice_pixelAt (hx : x ≠ Reg.VF) (hy : y ≠ Reg.VF) (hlen : rows.length ≤ 32) (px : Fin 64)
    (py : Fin 32) :
    (drawSprite mode x y rows (drawSprite mode x y rows s)).pixelAt px py = s.pixelAt px py := by
  obtain ⟨hfirst, -⟩ := drawSprite_spec mode x y s hlen
  obtain ⟨hsecond, -⟩ := drawSprite_spec mode x y (drawSprite mode x y rows s) hlen
  rw [hsecond, drawnPoints_drawSprite hx hy, hfirst, Bool.xor_assoc, Bool.xor_self, Bool.xor_false]

end

/-- Settles O59: the first draw changes neither I, memory nor the coordinates, so the second is the same draw; its
collision is a pixel that the first draw set, as every pixel is back. -/
theorem drwTwiceRestoresTheDisplay : Obligations.DrwTwiceRestoresTheDisplay := by
  intro x y n s t hx hy h
  have hin : n.val = 0 ∨ s.i.toNat + n.val ≤ 4096 := by
    by_contra hout
    cases (exec_drw_out x y hout).symm.trans h
  have hlen := s.bytesAt_sprite_length_le s.i.toNat n
  obtain rfl := exec_drw_next h
  have hagain := exec_drw_in x y (n := n)
    (s := drawSprite aliasMode x y (s.bytesAt s.i.toNat n.val) s) (by rwa [drawSprite_i])
  rw [drawSprite_i, drawSprite_bytesAt] at hagain
  have hback := drawSprite_twice_pixelAt (mode := aliasMode) (s := s) hx hy hlen
  refine ⟨_, hagain, hback, ?_⟩
  rw [drawSprite_flag_eq_one_iff aliasMode x y _ hlen]
  simp only [hback, and_comm]

end Sys2Proof.Machine
end
